-- ==== Sys2Proof/Word.lean ====
section
/-! DEFINITION. The three widths of the block: the `u32` of `a` and `y`, the 2-bit select, the 34-bit command word
(spec/00_scope.md section 5; 10_state.md R15; 30_encoding.md R30). -/

namespace Sys2Proof

/-- A `u32`: an integer of [0, 2^32 - 1], bit `i` of weight 2^i, always unsigned (00_scope.md section 5). -/
abbrev Word := BitVec 32

/-- A value of the operation-select port `op` (10_state.md R15). -/
abbrev Select := BitVec 2

/-- A command word, the pair of a select and an operand (30_encoding.md R30). -/
abbrev CommandWord := BitVec 34

end Sys2Proof
end

