-- ==== Sys2Proof/Machine/Flags.lean ====
section
/-! DEFINITION. The block has no flag, condition code or predicate (spec/10_state.md R12). Its only conditions are the two
one-bit tests of 00_scope.md R7, which live inside one evaluation. -/

namespace Sys2Proof.Machine

/-- `gtu(x, y)`: 1 when `x > y` as unsigned integers and 0 otherwise (00_scope.md R7), carried as a `u32`. -/
def gtu (x y : Word) : Word := if y.toNat < x.toNat then 1 else 0

/-- `eqz(x)`: 1 when `x = 0` and 0 otherwise (00_scope.md R7), carried as a `u32`. -/
def eqz (x : Word) : Word := if x = 0 then 1 else 0

end Sys2Proof.Machine
end

