-- ==== Sys2Proof/Syntax.lean ====
section
/-! DEFINITION. The operations of the block as syntax, one constructor for each row of spec/opcode_table.json. -/

namespace Sys2Proof

/-- An operation with the operand presented to it (spec/30_encoding.md R31). The operand is a `u32`, already reduced
by `trunc32` (R33). LOG2 and LOG2APPROX stay two constructors (42_log2approx.md R65). -/
inductive Instr where
  /-- NEXTPOW2, the power-of-two rounder (40_nextpow2.md R40). -/
  | nextpow2 (a : Word)
  /-- LOG2, the exact index of the highest set bit (41_log2.md R50). -/
  | log2 (a : Word)
  /-- LOG2APPROX, the approximate index (42_log2approx.md R60). -/
  | log2approx (a : Word)
deriving DecidableEq, Repr

end Sys2Proof
end

