-- ==== Sys2Proof/WellFormed.lean ====
section
/-! DEFINITION. What a host must present: a select of {0, 1, 2} and an operand that is a `u32` (spec/70_reset_and_hazards.md
R101). The operand half is the type of `Instr`; the select half is a check on command words. -/

namespace Sys2Proof

/-- Every operand is legal for each of the three operations (30_encoding.md R32), so every `Instr` is well formed. -/
def Instr.wellFormed : Instr → Bool
  | .nextpow2 _ => true
  | .log2 _ => true
  | .log2approx _ => true

/-- The host's obligation (a) of 70_reset_and_hazards.md R101: the select, bits [33:32], is not the reserved 3
(30_encoding.md R35). -/
def commandWellFormed (w : CommandWord) : Bool :=
  w.extractLsb' 32 2 != 3

end Sys2Proof
end

