-- ==== Sys2Proof/Decode.lean ====
section
/-! DEFINITION. The command word, its decoder and its encoder (spec/30_encoding.md R30 to R32, R35). -/

namespace Sys2Proof

/-- Why bits are no operation of the block. -/
inductive DecodeError where
  /-- The select is 3, which has no meaning (30_encoding.md R35). -/
  | reservedSelect
  /-- The number is above 2^34 - 1, so it is no command word (30_encoding.md R30). -/
  | notACommandWord
deriving DecidableEq, Repr

/-- The select code of NEXTPOW2 (30_encoding.md R31). -/
def selNextpow2 : Select := 0

/-- The select code of LOG2 (30_encoding.md R31). -/
def selLog2 : Select := 1

/-- The select code of LOG2APPROX (30_encoding.md R31). -/
def selLog2approx : Select := 2

/-- The command word `{op, a}`: `op` in bits [33:32], `a` in bits [31:0] (30_encoding.md R30). -/
def commandWord (op : Select) (a : Word) : CommandWord := op ++ a

/-- Field `op`, bits [33:32] (30_encoding.md R30). -/
def opField (w : CommandWord) : Select := w.extractLsb' 32 2

/-- Field `a`, bits [31:0] (30_encoding.md R30). -/
def aField (w : CommandWord) : Word := w.extractLsb' 0 32

/-- The decoder: total, stateless, by bits [33:32] alone (30_encoding.md R31, R32); the reserved select is refused by
name (R35). -/
def decode (w : CommandWord) : Except DecodeError Instr :=
  if opField w = selNextpow2 then .ok (.nextpow2 (aField w))
  else if opField w = selLog2 then .ok (.log2 (aField w))
  else if opField w = selLog2approx then .ok (.log2approx (aField w))
  else .error .reservedSelect

/-- The decoder on a number: a command word as a number is `op * 2^32 + a` (30_encoding.md R30), so a number above
2^34 - 1 is none (log entry 8). -/
def decodeNat (n : Nat) : Except DecodeError Instr :=
  if n < 2 ^ 34 then decode (BitVec.ofNat 34 n) else .error .notACommandWord

/-- The select code of an operation (30_encoding.md R31). -/
def Instr.select : Instr → Select
  | .nextpow2 _ => selNextpow2
  | .log2 _ => selLog2
  | .log2approx _ => selLog2approx

/-- The operand of an operation. -/
def Instr.operand : Instr → Word
  | .nextpow2 a => a
  | .log2 a => a
  | .log2approx a => a

/-- The encoder: the command word of an operation (30_encoding.md R30, R31). -/
def encode (i : Instr) : CommandWord := commandWord i.select i.operand

/-- The number that a table word of `nbits` bits stands for: bit 0 is the least significant, and every bit above
`nbits` is 0. -/
def tableNumber (nbits w : Nat) : Nat := w % 2 ^ nbits

/-- What the decoder reads from a word numbered as spec/opcode_table.json numbers it: the table's 34-bit row, in whole
bytes, is the command word with zeros above it (log entry 8). -/
def decodeTableWord (nbits w : Nat) : Option Instr :=
  match decodeNat (tableNumber nbits w) with
  | .ok i => some i
  | .error _ => none

end Sys2Proof
end

