-- ==== Sys2Proof/Machine/Operands.lean ====
section
/-! DEFINITION. Operand reduction: how an integer of the host becomes the `u32` on port `a` (spec/00_scope.md R8;
30_encoding.md R33). It is the only operand form; a non-integral value has none (R34, log entry 12). -/

namespace Sys2Proof.Machine

/-- `trunc32(x)`: `x mod 2^32`, the result in [0, 2^32 - 1], for an integer of either sign (00_scope.md R8). -/
def trunc32 (x : Int) : Word := BitVec.ofNat 32 (x % 2 ^ 32).toNat

/-- The command word a host presents for the operation `op` on the source integer `x`: reduced by `trunc32`, never
clamped and never refused (30_encoding.md R33). -/
def reducedCommand (op : Select) (x : Int) : CommandWord := commandWord op (trunc32 x)

end Sys2Proof.Machine
end

