-- ==== Sys2Proof/Machine/State.lean ====
section
/-! DEFINITION. The machine's state: the three ports and the run. The block itself holds no state of any kind
(spec/10_state.md R10 to R14, R17); see log entries 1 and 2. -/

namespace Sys2Proof.Machine

/-- The state a model steps through. The block's own state is empty ("A model's state type for this block is the unit
type", 10_state.md R14): `op`, `a` and `y` are its ports, wires and not storage (R15), and `pending` and `observed` are
the run of 70_reset_and_hazards.md R106, which the host keeps (log entry 1). -/
structure State where
  /-- Port `op` (10_state.md R15): the select the host drives, `none` while it drives none (R17). -/
  op : Option Select
  /-- Port `a` (10_state.md R15): the operand the host drives, `none` while it drives none (R17). -/
  a : Option Word
  /-- Port `y` (10_state.md R15, R16): the result, `none` while it has no meaning (R17). -/
  y : Option Word
  /-- The command words of the run still to be presented, the next one first (70_reset_and_hazards.md R106). -/
  pending : List CommandWord
  /-- The run's observation so far: the `y` of each word presented, oldest first (70_reset_and_hazards.md R106). -/
  observed : List Word
deriving DecidableEq, Repr

/-- No operation raises an exception, for any operand, and a model "has no fault outcome" (60_exceptions.md R90): there
is no reason to fault, so nothing raises one (safe). -/
inductive Fault where
deriving DecidableEq, Repr

/-- Why a step gives no meaning. -/
inductive Refusal where
  /-- Raised only by an arm of `exec` whose operation had no meaning yet; no arm of this model is one (safe). -/
  | notModelled (mnemonic : String)
  /-- Raised by `step` on a command word that decodes to no operation: `reservedSelect`, the select 3 (30_encoding.md
  R35; log entry 4). The hardware raises nothing and its `y` is unspecified there, so stopping is safe. -/
  | undecoded (e : DecodeError)
  /-- Raised by `step` when the run holds no further word: nothing is presented, so there is no evaluation to make
  (10_state.md R17; 70_reset_and_hazards.md R106; log entry 3). Safe: no claim about `y` follows from it. -/
  | nothingPresented
deriving DecidableEq, Repr

/-- Right after power is applied: no port is driven, `y` has no meaning, nothing is presented or observed (10_state.md
R17; 70_reset_and_hazards.md R100; log entries 1 and 2). -/
def State.reset : State :=
  { op := none, a := none, y := none, pending := [], observed := [] }

end Sys2Proof.Machine
end

