-- ==== Sys2Proof/Machine/Ops.lean ====
section
/-! DEFINITION. The primitives of the pseudocode (spec/00_scope.md R4 to R6) and the one thing an evaluation does to the
machine's state. There is no memory, no exception entry and no return to write (20_memory.md R20; 60_exceptions.md R93). -/

namespace Sys2Proof.Machine

/-- `add32(x, y)`: `(x + y) mod 2^32`, no carry out (00_scope.md R4). -/
def add32 (x y : Word) : Word := x + y

/-- `sub32(x, y)`: `(x - y) mod 2^32`, no borrow out (00_scope.md R4). -/
def sub32 (x y : Word) : Word := x - y

/-- `shr32(x, n)`: the logical right shift `floor(x / 2^n)`, for `n` in [0, 31] (00_scope.md R5; log entry 13 on other
amounts, which no rule uses). -/
def shr32 (x : Word) (n : Nat) : Word := x >>> n

/-- `shl32(x, n)`: `(x * 2^n) mod 2^32` (00_scope.md R6). -/
def shl32 (x : Word) (n : Nat) : Word := x <<< n

/-- `or32(x, y)`: the bitwise OR (00_scope.md R6). -/
def or32 (x y : Word) : Word := x ||| y

/-- One evaluation: the host drives `op` and `a`, port `y` shows `y`, and the host takes that value into the run's
observation (10_state.md R15, R16; 70_reset_and_hazards.md R106). Nothing else changes (20_memory.md R23). -/
def State.evaluate (s : State) (op : Select) (a y : Word) : State :=
  { s with op := some op, a := some a, y := some y, observed := s.observed ++ [y] }

/-- The host presents one more command word, ahead of the words it still has to present (70_reset_and_hazards.md R106;
log entry 7). -/
def State.presentWord (s : State) (w : CommandWord) : State :=
  { s with pending := w :: s.pending }

end Sys2Proof.Machine
end

