-- ==== Sys2Proof/Machine/Log2.lean ====
section
/-! DEFINITION. LOG2, the exact index of the highest set bit: the pseudocode of spec/41_log2.md R50 with every intermediate
under its own name. -/

namespace Sys2Proof.Machine

/-- The shift amount of a stage, `shl32(gtu(v, threshold), k)`: the stage's weight 2^k or 0 (41_log2.md R50). -/
def stageShift (v threshold : Word) (k : Nat) : Word := shl32 (gtu v threshold) k

/-- Stage 1, `s4`: 16 or 0 (41_log2.md R50). -/
def log2S4 (a : Word) : Word := stageShift a 0xFFFF 4

/-- Stage 1, `v1` (41_log2.md R50). -/
def log2V1 (a : Word) : Word := shr32 a (log2S4 a).toNat

/-- Stage 1, `r1` (41_log2.md R50). -/
def log2R1 (a : Word) : Word := log2S4 a

/-- Stage 2, `s3`: 8 or 0 (41_log2.md R50). -/
def log2S3 (a : Word) : Word := stageShift (log2V1 a) 0xFF 3

/-- Stage 2, `v2` (41_log2.md R50). -/
def log2V2 (a : Word) : Word := shr32 (log2V1 a) (log2S3 a).toNat

/-- Stage 2, `r2` (41_log2.md R50). -/
def log2R2 (a : Word) : Word := or32 (log2R1 a) (log2S3 a)

/-- Stage 3, `s2`: 4 or 0 (41_log2.md R50). -/
def log2S2 (a : Word) : Word := stageShift (log2V2 a) 0xF 2

/-- Stage 3, `v3` (41_log2.md R50). -/
def log2V3 (a : Word) : Word := shr32 (log2V2 a) (log2S2 a).toNat

/-- Stage 3, `r3` (41_log2.md R50). -/
def log2R3 (a : Word) : Word := or32 (log2R2 a) (log2S2 a)

/-- Stage 4, `s1`: 2 or 0 (41_log2.md R50). -/
def log2S1 (a : Word) : Word := stageShift (log2V3 a) 0x3 1

/-- Stage 4, `v4` (41_log2.md R50). -/
def log2V4 (a : Word) : Word := shr32 (log2V3 a) (log2S1 a).toNat

/-- Stage 4, `r4` (41_log2.md R50). -/
def log2R4 (a : Word) : Word := or32 (log2R3 a) (log2S1 a)

/-- The result of LOG2: stage 5 supplies the last bit (41_log2.md R50; 90_conflicts.md C4). -/
def log2 (a : Word) : Word := or32 (log2R4 a) (shr32 (log2V4 a) 1)

/-- The meaning of LOG2 (41_log2.md R50, R52): no flag, no exception, for any operand, 0 among them. -/
def execLog2 (a : Word) (s : State) : Host.Outcome State Fault Refusal :=
  .next (s.evaluate selLog2 a (log2 a))

end Sys2Proof.Machine
end

