-- ==== Sys2Proof/Config.lean ====
section
/-! DEFINITION. What the spec leaves to the implementation: the open function and the open set of LOG2APPROX
(spec/42_log2approx.md R60 to R66; log entries 5 and 6) and the latency (70_reset_and_hazards.md R105). -/

namespace Sys2Proof

/-- The value of `APPROX` where the spec fixes none: at operand 0 (42_log2approx.md R63) and on `APPROX_DIV` (R62).
A free value: it has no body, so every statement holds for every function here. It is a function of the operand alone,
the same in every evaluation (R61). -/
opaque Config.approxFree : Word → Word

/-- The set `APPROX_DIV` of operands on which LOG2APPROX may differ from LOG2 (42_log2approx.md R62, R66), as its
membership test. A free value, never chosen. Membership of 0 is not read from it: 0 is no member (R63). -/
opaque Config.approxDiv : Word → Bool

/-- `LATENCY`: the block is combinational, and a model built from the spec uses 0 (70_reset_and_hazards.md R105). -/
def Config.latency : Nat := 0

end Sys2Proof
end

