-- ==== Sys2Proof/Machine/Log2Approx.lean ====
section
/-! DEFINITION. LOG2APPROX, the approximate index: a fixed function of the operand that the spec ties to LOG2 outside an
open set and leaves free elsewhere (spec/42_log2approx.md R60 to R66; log entries 5 and 6). -/

namespace Sys2Proof.Machine

/-- `APPROX` from its two open parts (42_log2approx.md R62, R63): equal to LOG2 on operands `a >= 1` outside the
divergence set, the free value at 0 and on the set. Every pair the spec admits has this form, with `free` the
hardware's own function. -/
def approxOf (free : Word → Word) (div : Word → Bool) (a : Word) : Word :=
  if a = 0 ∨ div a = true then free a else log2 a

/-- `APPROX` of this machine: the same in every evaluation (42_log2approx.md R60, R61). -/
def approx (a : Word) : Word := approxOf Config.approxFree Config.approxDiv a

/-- Membership of `APPROX_DIV`, a subset of [1, 2^32 - 1] (42_log2approx.md R62): 0 is no member (R63). -/
def approxDivMem (div : Word → Bool) (a : Word) : Bool := a != 0 && div a

/-- The meaning of LOG2APPROX, `y <- APPROX(a)` (42_log2approx.md R60): it runs on every operand and raises nothing; no
floating-point state is architected (R64). -/
def execLog2approx (a : Word) (s : State) : Host.Outcome State Fault Refusal :=
  .next (s.evaluate selLog2approx a (approx a))

end Sys2Proof.Machine
end

