-- ==== Sys2Proof/Machine/NextPow2.lean ====
section
/-! DEFINITION. NEXTPOW2, the power-of-two rounder: the pseudocode of spec/40_nextpow2.md R40 with every intermediate under
its own name. -/

namespace Sys2Proof.Machine

/-- One propagation step, `or32(x, shr32(x, n))` (40_nextpow2.md R40). -/
def smear (x : Word) (n : Nat) : Word := or32 x (shr32 x n)

/-- `z`: 1 when the operand is 0 (40_nextpow2.md R40). -/
def np2Z (a : Word) : Word := eqz a

/-- `t0`: the operand, or 1 when it is 0 (40_nextpow2.md R40, R42). -/
def np2T0 (a : Word) : Word := add32 a (np2Z a)

/-- `t1`: decrement by one (40_nextpow2.md R40). -/
def np2T1 (a : Word) : Word := sub32 (np2T0 a) 1

/-- `t2` (40_nextpow2.md R40). -/
def np2T2 (a : Word) : Word := smear (np2T1 a) 1

/-- `t3` (40_nextpow2.md R40). -/
def np2T3 (a : Word) : Word := smear (np2T2 a) 2

/-- `t4` (40_nextpow2.md R40). -/
def np2T4 (a : Word) : Word := smear (np2T3 a) 4

/-- `t5` (40_nextpow2.md R40). -/
def np2T5 (a : Word) : Word := smear (np2T4 a) 8

/-- `t6` (40_nextpow2.md R40). -/
def np2T6 (a : Word) : Word := smear (np2T5 a) 16

/-- The result of NEXTPOW2; the final add wraps to 0 when `t6` is all ones (40_nextpow2.md R40, R43). -/
def nextpow2 (a : Word) : Word := add32 (np2T6 a) 1

/-- The meaning of NEXTPOW2 (40_nextpow2.md R40): no flag, no exception, for any operand. -/
def execNextpow2 (a : Word) (s : State) : Host.Outcome State Fault Refusal :=
  .next (s.evaluate selNextpow2 a (nextpow2 a))

end Sys2Proof.Machine
end

