-- ==== Sys2Proof/Machine/Dispatch.lean ====
section
/-! DEFINITION. One arm for each operation: each calls its own meaning. -/

namespace Sys2Proof.Machine

def exec (i : Instr) (s : State) : Host.Outcome State Fault Refusal :=
  match i with
  | .nextpow2 a => Sys2Proof.Machine.execNextpow2 a s
  | .log2 a => Sys2Proof.Machine.execLog2 a s
  | .log2approx a => Sys2Proof.Machine.execLog2approx a s

end Sys2Proof.Machine
end

