-- ==== Sys2Proof/Machine/Step.lean ====
section
/-! DEFINITION. One step of a run: the next command word is presented, decoded and evaluated (spec/70_reset_and_hazards.md
R102, R106). -/

namespace Sys2Proof.Machine

/-- One step: the host presents the next word of the run (70_reset_and_hazards.md R106). A reserved word is refused and
gives no value (30_encoding.md R35); with no word left nothing is presented (log entry 3). -/
def step (s : State) : Host.Outcome State Fault Refusal :=
  match s.pending with
  | [] => .refused .nothingPresented
  | w :: rest =>
    match decode w with
    | .ok i => exec i { s with pending := rest }
    | .error e => .refused (.undecoded e)

/-- `s` with the command word of a table word presented next, so that the very next step runs it (log entry 7). A number
above 2^34 - 1 is no command word (30_encoding.md R30), and then nothing is presented (log entry 8). -/
def State.withFetchWord (s : State) (nbits w : Nat) : State :=
  if tableNumber nbits w < 2 ^ 34 then s.presentWord (BitVec.ofNat 34 (tableNumber nbits w)) else s

end Sys2Proof.Machine
end

