-- ==== Sys2Proof/Machine/Assembler.lean ====
section
/-! DEFINITION. The written form of evaluations and its run: lines `<dest> = <MNEMONIC> <operand>` (spec/30_encoding.md R36;
log entries 15 to 18). Names are the host's, not registers of the block. -/

namespace Sys2Proof.Machine

/-- A name the host gives to a result (30_encoding.md R36). -/
abbrev Name := List Char

/-- The three mnemonics (30_encoding.md R36). -/
inductive Mnemonic where
  | nextpow2
  | log2
  | log2approx
deriving DecidableEq, Repr

/-- An operand as written: a literal integer of either sign and any size, or the name of an earlier result. -/
inductive Source where
  | literal (x : Int)
  | name (n : Name)
deriving DecidableEq, Repr

/-- One line: one evaluation and the name its result is given. -/
structure Line where
  dest : Name
  mnemonic : Mnemonic
  operand : Source
deriving DecidableEq, Repr

/-- Why a line has no meaning. -/
inductive LineError where
  /-- The operand is a name no earlier line gave. -/
  | unknownName (n : Name)
  /-- The machine refused the evaluation. -/
  | refused (r : Refusal)
  /-- The machine gave no result; no meaning of this model does that. -/
  | noResult
  /-- The text is not of the form of 30_encoding.md R36. -/
  | malformed
deriving DecidableEq, Repr

/-- The select code a mnemonic stands for (30_encoding.md R31). -/
def mnemonicSelect : Mnemonic → Select
  | .nextpow2 => selNextpow2
  | .log2 => selLog2
  | .log2approx => selLog2approx

/-- The value of a name: that of the line nearest above which gave it (DESIGN CHOICE, log entry 16). `names` holds the
newest first. Names are compared letter by letter, so names that differ only in case are two names (DESIGN CHOICE, log
entry 17: the rule gives any case to mnemonics and is silent on names). -/
def lookupName (names : List (Name × Word)) (n : Name) : Option Word :=
  match names with
  | [] => none
  | (m, v) :: rest => if m = n then some v else lookupName rest n

/-- The integer an operand stands for: the literal, or the `u32` of an earlier result (30_encoding.md R36). -/
def sourceValue (names : List (Name × Word)) : Source → Option Int
  | .literal x => some x
  | .name n => (lookupName names n).map fun v => (v.toNat : Int)

/-- Run one line: reduce its operand, present its command word, take `y` under its name (30_encoding.md R33, R36). -/
def runLine (names : List (Name × Word)) (s : State) (l : Line) :
    Except LineError (List (Name × Word) × State) :=
  match sourceValue names l.operand with
  | none =>
    match l.operand with
    | .name n => .error (.unknownName n)
    | .literal _ => .error .malformed
  | some x =>
    match step (s.presentWord (reducedCommand (mnemonicSelect l.mnemonic) x)) with
    | .next t =>
      match t.y with
      | some v => .ok ((l.dest, v) :: names, t)
      | none => .error .noResult
    | .fault _ => .error .noResult
    | .refused r => .error (.refused r)

/-- Run lines from the top to the bottom (30_encoding.md R36). A line that has no meaning, as one that reads an unknown
name, ends the run with its reason, and the results of the lines above it are not given (DESIGN CHOICE, log entry 18). -/
def runLines (names : List (Name × Word)) (s : State) : List Line →
    Except LineError (List (Name × Word) × State)
  | [] => .ok (names, s)
  | l :: ls =>
    match runLine names s l with
    | .ok r => runLines r.1 r.2 ls
    | .error e => .error e

/-- Every operand is a literal or the name of an earlier line, the names of `earlier` counting as given (30_encoding.md
R36). -/
def linesWellFormed (earlier : List Name) : List Line → Bool
  | [] => true
  | l :: ls =>
    (match l.operand with
      | .literal _ => true
      | .name n => earlier.contains n) && linesWellFormed (l.dest :: earlier) ls

/-- A mnemonic as written, in any case; the spellings nextPow2, log2 and log2Approx are three of them (30_encoding.md
R36). -/
def mnemonicOf (text : List Char) : Option Mnemonic :=
  let up := text.map Char.toUpper
  if up = ['N', 'E', 'X', 'T', 'P', 'O', 'W', '2'] then some .nextpow2
  else if up = ['L', 'O', 'G', '2'] then some .log2
  else if up = ['L', 'O', 'G', '2', 'A', 'P', 'P', 'R', 'O', 'X'] then some .log2approx
  else none

/-- The value of a digit, decimal or hexadecimal of either case. -/
def digitValue (c : Char) : Option Nat :=
  if '0' ≤ c ∧ c ≤ '9' then some (c.toNat - '0'.toNat)
  else if 'a' ≤ c ∧ c ≤ 'f' then some (c.toNat - 'a'.toNat + 10)
  else if 'A' ≤ c ∧ c ≤ 'F' then some (c.toNat - 'A'.toNat + 10)
  else none

/-- A number written with digits of the base, after `value`; `none` at a character that is no digit of the base. -/
def digitsFrom (base value : Nat) : List Char → Option Nat
  | [] => some value
  | c :: cs =>
    match digitValue c with
    | some d => if d < base then digitsFrom base (value * base + d) cs else none
    | none => none

/-- An unsigned literal: decimal, or hexadecimal after 0x; at least one digit (30_encoding.md R36). -/
def magnitudeOf : List Char → Option Nat
  | [] => none
  | ['0', 'x'] => none
  | '0' :: 'x' :: ds => digitsFrom 16 0 ds
  | ds => digitsFrom 10 0 ds

/-- A literal integer, with a minus sign before it when negative (30_encoding.md R36). -/
def literalOf : List Char → Option Int
  | '-' :: ds => (magnitudeOf ds).map fun n => -(n : Int)
  | ds => (magnitudeOf ds).map fun n => (n : Int)

/-- A letter or an underscore, with which a name begins (log entry 15). -/
def nameStart (c : Char) : Bool :=
  decide ('a' ≤ c ∧ c ≤ 'z' ∨ 'A' ≤ c ∧ c ≤ 'Z' ∨ c = '_')

/-- A name: a letter or an underscore, then letters, underscores and digits (log entry 15). -/
def isName : List Char → Bool
  | [] => false
  | c :: cs => nameStart c && cs.all fun d => nameStart d || decide ('0' ≤ d ∧ d ≤ '9')

/-- An operand as written: a name, or else a literal (30_encoding.md R36). -/
def sourceOf (text : List Char) : Option Source :=
  if isName text then some (.name text) else (literalOf text).map .literal

/-- A word read so far, last character first, as a list of no word or one. -/
def flushWord (word : List Char) : List (List Char) :=
  if word = [] then [] else [word.reverse]

/-- The words of a line: blanks part them, the equals sign is a word of its own (log entry 15). -/
def wordsOf (word : List Char) : List Char → List (List Char)
  | [] => flushWord word
  | c :: cs =>
    if c = ' ' ∨ c = '\t' then flushWord word ++ wordsOf [] cs
    else if c = '=' then flushWord word ++ [['=']] ++ wordsOf [] cs
    else wordsOf (c :: word) cs

/-- A line of text without what follows the first semicolon (30_encoding.md R36). -/
def withoutComment : List Char → List Char
  | [] => []
  | c :: cs => if c = ';' then [] else c :: withoutComment cs

/-- A line of text: a line of the program, or none when it holds a comment or nothing (30_encoding.md R36). -/
def parseLine (text : List Char) : Except LineError (Option Line) :=
  match wordsOf [] (withoutComment text) with
  | [] => .ok none
  | [dest, ['='], mnemonic, operand] =>
    match isName dest, mnemonicOf mnemonic, sourceOf operand with
    | true, some m, some x => .ok (some { dest := dest, mnemonic := m, operand := x })
    | _, _, _ => .error .malformed
  | _ => .error .malformed

/-- A program of text lines: its lines that are no comment, in order (30_encoding.md R36). One line that is not of the form
makes the whole text `malformed` (DESIGN CHOICE, log entry 18). -/
def parseLines : List (List Char) → Except LineError (List Line)
  | [] => .ok []
  | text :: texts =>
    match parseLine text, parseLines texts with
    | .ok (some l), .ok ls => .ok (l :: ls)
    | .ok none, .ok ls => .ok ls
    | _, _ => .error .malformed

/-- Run a program of text lines from reset: the names with their values, the newest first (30_encoding.md R36). The whole
text is read before its first line runs, and the answer is every name or one reason (DESIGN CHOICE, log entry 18). -/
def runText (texts : List (List Char)) : Except LineError (List (Name × Word)) :=
  match parseLines texts with
  | .ok ls =>
    match runLines [] State.reset ls with
    | .ok r => .ok r.1
    | .error e => .error e
  | .error e => .error e

end Sys2Proof.Machine
end

