-- ==== Sys2Proof/Machine/Dataflow.lean ====
section
/-! DEFINITION. The two exact operations as straight-line code over the primitives: no branch, no loop, a fixed number of
primitive operations for every operand (spec/70_reset_and_hazards.md R104; 60_exceptions.md R94). The machine does not
run on this form; it is there so that the work of an evaluation can be counted. -/

namespace Sys2Proof.Machine

/-- The primitive operators an evaluation may use (43_laws_and_derived_views.md R71). -/
inductive Prim where
  | add32 | sub32 | shr32 | shl32 | or32 | gtu | eqz
deriving DecidableEq, Repr

/-- An argument: a constant, or an earlier value by its number (the operand is number 0). -/
inductive Arg where
  | const (c : Word)
  | value (n : Nat)
deriving DecidableEq, Repr

/-- One primitive operation on two arguments; `eqz` reads the first only. -/
structure Node where
  prim : Prim
  x : Arg
  y : Arg
deriving DecidableEq, Repr

/-- A primitive applied to its arguments (00_scope.md R4 to R7). -/
def Prim.apply (p : Prim) (x y : Word) : Word :=
  match p with
  | .add32 => Sys2Proof.Machine.add32 x y
  | .sub32 => Sys2Proof.Machine.sub32 x y
  | .shr32 => Sys2Proof.Machine.shr32 x y.toNat
  | .shl32 => Sys2Proof.Machine.shl32 x y.toNat
  | .or32 => Sys2Proof.Machine.or32 x y
  | .gtu => Sys2Proof.Machine.gtu x y
  | .eqz => Sys2Proof.Machine.eqz x

/-- An argument's value; `none` for a number not computed yet. -/
def Arg.read (values : List Word) : Arg → Option Word
  | .const c => some c
  | .value n => values[n]?

/-- The values of straight-line code, each appended to those before it. -/
def runNodes (values : List Word) : List Node → Option (List Word)
  | [] => some values
  | n :: ns =>
    match n.x.read values, n.y.read values with
    | some x, some y => runNodes (values ++ [n.prim.apply x y]) ns
    | _, _ => none

/-- The result of straight-line code on the operand `a`: its last value. -/
def nodesResult (ns : List Node) (a : Word) : Option Word :=
  match runNodes [a] ns with
  | some values => values.getLast?
  | none => none

/-- How many operations of a kind the code holds. -/
def countPrim (p : Prim) (ns : List Node) : Nat := (ns.filter fun n => n.prim = p).length

/-- NEXTPOW2, line by line (40_nextpow2.md R40). -/
def nextpow2Nodes : List Node :=
  [ ⟨.eqz, .value 0, .const 0⟩, ⟨.add32, .value 0, .value 1⟩, ⟨.sub32, .value 2, .const 1⟩,
    ⟨.shr32, .value 3, .const 1⟩, ⟨.or32, .value 3, .value 4⟩,
    ⟨.shr32, .value 5, .const 2⟩, ⟨.or32, .value 5, .value 6⟩,
    ⟨.shr32, .value 7, .const 4⟩, ⟨.or32, .value 7, .value 8⟩,
    ⟨.shr32, .value 9, .const 8⟩, ⟨.or32, .value 9, .value 10⟩,
    ⟨.shr32, .value 11, .const 16⟩, ⟨.or32, .value 11, .value 12⟩,
    ⟨.add32, .value 13, .const 1⟩ ]

/-- LOG2, line by line (41_log2.md R50). -/
def log2Nodes : List Node :=
  [ ⟨.gtu, .value 0, .const 0xFFFF⟩, ⟨.shl32, .value 1, .const 4⟩, ⟨.shr32, .value 0, .value 2⟩,
    ⟨.gtu, .value 3, .const 0xFF⟩, ⟨.shl32, .value 4, .const 3⟩, ⟨.shr32, .value 3, .value 5⟩,
    ⟨.or32, .value 2, .value 5⟩,
    ⟨.gtu, .value 6, .const 0xF⟩, ⟨.shl32, .value 8, .const 2⟩, ⟨.shr32, .value 6, .value 9⟩,
    ⟨.or32, .value 7, .value 9⟩,
    ⟨.gtu, .value 10, .const 3⟩, ⟨.shl32, .value 12, .const 1⟩, ⟨.shr32, .value 10, .value 13⟩,
    ⟨.or32, .value 11, .value 13⟩,
    ⟨.shr32, .value 14, .const 1⟩, ⟨.or32, .value 15, .value 16⟩ ]

end Sys2Proof.Machine
end

