-- ==== Sys2Proof/Machine/Instances.lean ====
section
/-! DEFINITION. Several instances of the block and several hosts: requests served one after another in any order, nothing
shared (spec/20_memory.md R24, R27; log entry 14). -/

namespace Sys2Proof.Machine

/-- One request: the command word `w` is presented to instance number `k` (20_memory.md R27). `none` when there is no
such instance or it refuses the word. -/
def serveOne (bank : List State) (k : Nat) (w : CommandWord) : Option (List State) :=
  match bank[k]? with
  | none => none
  | some s =>
    match step (s.presentWord w) with
    | .next t => some (bank.set k t)
    | _ => none

/-- Requests in the order they are served, each the number of an instance and a command word. -/
def serveAll (bank : List State) : List (Nat × CommandWord) → Option (List State)
  | [] => some bank
  | q :: qs =>
    match serveOne bank q.1 q.2 with
    | some bank' => serveAll bank' qs
    | none => none

end Sys2Proof.Machine
end

