-- ==== Sys2Proof/Machine/PortFunction.lean ====
section
/-! DEFINITION. The function `F` of spec/10_state.md R16: what port `y` shows for the values on `op` and `a`. -/

namespace Sys2Proof.Machine

/-- `F(op, a)` (10_state.md R16); `none` at the reserved select, which has no meaning (30_encoding.md R35). -/
def portFunction (op : Select) (a : Word) : Option Word :=
  if op = selNextpow2 then some (nextpow2 a)
  else if op = selLog2 then some (log2 a)
  else if op = selLog2approx then some (approx a)
  else none

/-- `F` of the pair a command word holds (30_encoding.md R30). -/
def commandResult (w : CommandWord) : Option Word := portFunction (opField w) (aField w)

end Sys2Proof.Machine
end

