-- ==== Sys2Proof/Machine/Pipeline.lean ====
section
/-! DEFINITION. An implementation that pipelines the block: a shift register of `LATENCY` results (spec/70_reset_and_hazards.md
R105; log entry 9). The block of the model has `LATENCY = 0`; this file says what R105 allows beside it. -/

namespace Sys2Proof.Machine

/-- One clock edge: `p` is what the presented pair gives, `regs` the pipeline registers, the newest first. The registers
shift by one, in order, and the oldest value leaves on `y`; with no register `y` is `p` itself. `none` is a value
without meaning. -/
def pipeEdge (p : Option Word) : List (Option Word) → List (Option Word) × Option Word
  | [] => ([], p)
  | r :: rs => (p :: (pipeEdge r rs).1, (pipeEdge r rs).2)

/-- The values of `y` at the clock edges at which the words are presented, from registers that hold `regs`. -/
def pipeRun (regs : List (Option Word)) : List CommandWord → List (Option Word)
  | [] => []
  | w :: ws => (pipeEdge (commandResult w) regs).2 :: pipeRun (pipeEdge (commandResult w) regs).1 ws

end Sys2Proof.Machine
end

