-- ==== Sys2Proof/Machine/Views.lean ====
section
/-! DEFINITION. The derived views: leading-zero count and bit length, functions of the LOG2 result and no operations
(spec/43_laws_and_derived_views.md R79 to R82). -/

namespace Sys2Proof.Machine

/-- `LZC(a) = 31 - LOG2(a)` for `a >= 1` (43_laws_and_derived_views.md R80); not defined at 0 (R82; log entry 10). -/
def lzc (a : Word) : Option Nat := if a = 0 then none else some (31 - (log2 a).toNat)

/-- `BITLEN(a) = LOG2(a) + 1` for `a >= 1` (43_laws_and_derived_views.md R81); not defined at 0 (R82; log entry 10). -/
def bitlen (a : Word) : Option Nat := if a = 0 then none else some ((log2 a).toNat + 1)

end Sys2Proof.Machine
end

