-- ==== Sys2Proof/Safety.lean ====
section
/-! DEFINITION. What holds of a run: the ports agree with the function of spec/10_state.md R16, and the host keeps its side
(70_reset_and_hazards.md R101). And the properties of `APPROX` that a claim may name (42_log2approx.md R66). -/

namespace Sys2Proof.Machine

/-- The ports agree: either no evaluation was made and no port has a meaning (10_state.md R17), or `op` and `a` hold
defined values and `y` is `F(op, a)` (R16), which is also the last value observed (70_reset_and_hazards.md R106). -/
def PortsAgree (s : State) : Prop :=
  (s.op = none ∧ s.a = none ∧ s.y = none ∧ s.observed = []) ∨
    ∃ op a y, s.op = some op ∧ s.a = some a ∧ s.y = some y ∧ portFunction op a = some y ∧
      s.observed.getLast? = some y

/-- `H_off_div`, normative (42_log2approx.md R62, R66): equal to LOG2 for `a >= 1` outside the set. That `f` is a function
of the operand alone, `H_pure` (R61), is its type. -/
def HOffDiv (f : Word → Word) (div : Word → Bool) : Prop :=
  ∀ a : Word, 1 ≤ a.toNat → approxDivMem div a = false → f a = log2 a

/-- `H_pow2_only`, an assumption a claim may name and no rule (42_log2approx.md R66): the set holds powers of two only. -/
def HPow2Only (div : Word → Bool) : Prop :=
  ∀ a : Word, approxDivMem div a = true → ∃ k, 1 ≤ k ∧ k ≤ 31 ∧ a.toNat = 2 ^ k

/-- `H_low_by_one`, an assumption a claim may name and no rule (42_log2approx.md R66): one too low on the set. -/
def HLowByOne (f : Word → Word) (div : Word → Bool) : Prop :=
  ∀ a : Word, approxDivMem div a = true → ((f a).toNat : Int) = ((log2 a).toNat : Int) - 1

/-- `H_range`, which no rule states (42_log2approx.md R66): a bit index for every `a >= 1`. -/
def HRange (f : Word → Word) : Prop := ∀ a : Word, 1 ≤ a.toNat → (f a).toNat ≤ 31

/-- `H_zero`, an assumption a claim may name and no rule (42_log2approx.md R63, R66): 0 at operand 0. -/
def HZero (f : Word → Word) : Prop := f 0 = 0

/-- The host keeps obligation (a) of 70_reset_and_hazards.md R101: no word it still has to present is reserved. -/
def HostObeys (s : State) : Prop := ∀ w ∈ s.pending, commandWellFormed w = true

end Sys2Proof.Machine
end

