-- ==== Sys2Proof/Certificates/Slice0/Obligations.lean ====
section
/-! DEFINITION. The statements, in the order of the rules of spec/ they come from. A number in a docstring as O5 is the
statement's number in OBLIGATIONS.json. -/

open Sys2Proof Sys2Proof.Machine

/- The primitives: spec/00_scope.md R4 to R8. -/

/-- O1. `add32` and `sub32` are modulo 2^32 (00_scope.md R4). -/
def Obligations.AddAndSubAreModulo : Prop :=
  ∀ x y : Word,
    (add32 x y).toNat = (x.toNat + y.toNat) % 2 ^ 32 ∧
    ((sub32 x y).toNat : Int) = ((x.toNat : Int) - (y.toNat : Int)) % 2 ^ 32 ∧
    sub32 0 1 = 0xFFFFFFFF

/-- O2. The right shift is logical, the left shift of one bit by 1 to 4 places loses nothing, and the OR is bitwise
(00_scope.md section 5.1). -/
def Obligations.ShiftsAreLogicalOrIsBitwise : Prop :=
  (∀ (x : Word) (n : Nat), n ≤ 31 → (shr32 x n).toNat = x.toNat / 2 ^ n) ∧
  (∀ x : Word, shr32 x 0 = x) ∧
  (∀ (x : Word) (n : Nat), (shl32 x n).toNat = x.toNat * 2 ^ n % 2 ^ 32) ∧
  (∀ (x : Word) (n : Nat), x.toNat ≤ 1 → 1 ≤ n → n ≤ 4 → (shl32 x n).toNat = x.toNat * 2 ^ n) ∧
  (∀ (x y : Word) (i : Nat), (or32 x y).getLsbD i = (x.getLsbD i || y.getLsbD i))

/-- O3. `gtu` and `eqz` are one-bit tests, the comparison unsigned: an operand with bit 31 set exceeds 0xFFFF
(00_scope.md R7). -/
def Obligations.TestsAreUnsigned : Prop :=
  (∀ x y : Word, (y.toNat < x.toNat → gtu x y = 1) ∧ (x.toNat ≤ y.toNat → gtu x y = 0)) ∧
  (∀ x : Word, (x.toNat = 0 → eqz x = 1) ∧ (x.toNat ≠ 0 → eqz x = 0)) ∧
  (∀ x : Word, x.getLsbD 31 = true → gtu x 0xFFFF = 1)

/-- O4. `trunc32` is `x mod 2^32` for an integer of either sign, the low 32 bits of its two's-complement pattern, and
changes nothing in [0, 2^32 - 1] (00_scope.md R8). -/
def Obligations.TruncationIsModulo : Prop :=
  (∀ x : Int, ((trunc32 x).toNat : Int) = x % 2 ^ 32) ∧
  (∀ x : Int, trunc32 x = BitVec.ofInt 32 x) ∧
  (∀ x : Int, 0 ≤ x → x ≤ 2 ^ 32 - 1 → ((trunc32 x).toNat : Int) = x)

/- The command word: spec/30_encoding.md R30 to R35. -/

/-- O5. The command word is the number `op * 2^32 + a`; its fields are bits [33:32] and [31:0]; every word is the word of
one pair and of no other (30_encoding.md R30). -/
def Obligations.CommandWordIsThePair : Prop :=
  (∀ (op : Select) (a : Word), (commandWord op a).toNat = op.toNat * 2 ^ 32 + a.toNat) ∧
  (∀ w : CommandWord, (opField w).toNat = w.toNat / 2 ^ 32 ∧ (aField w).toNat = w.toNat % 2 ^ 32) ∧
  (∀ w : CommandWord, commandWord (opField w) (aField w) = w) ∧
  (∀ (op op' : Select) (a a' : Word), commandWord op a = commandWord op' a' → op = op' ∧ a = a')

/-- O6. The mask 0x300000000 and the three matches select the operations, and the rest is reserved (30_encoding.md
R31). -/
def Obligations.MaskAndMatchSelectTheOperation : Prop :=
  ∀ w : CommandWord,
    (w &&& 0x300000000 = 0x000000000 ↔ decode w = .ok (.nextpow2 (aField w))) ∧
    (w &&& 0x300000000 = 0x100000000 ↔ decode w = .ok (.log2 (aField w))) ∧
    (w &&& 0x300000000 = 0x200000000 ↔ decode w = .ok (.log2approx (aField w))) ∧
    (w &&& 0x300000000 = 0x300000000 ↔ decode w = .error .reservedSelect) ∧
    (w &&& 0x300000000 = 0x000000000 ∨ w &&& 0x300000000 = 0x100000000 ∨
      w &&& 0x300000000 = 0x200000000 ∨ w &&& 0x300000000 = 0x300000000)

/-- O7. Decoding is total, by the select alone, and every operand is legal for each operation (30_encoding.md R32). -/
def Obligations.DecodingIsBySelectAlone : Prop :=
  ∀ (op : Select) (a : Word),
    decode (commandWord op a) =
      if op.toNat = 0 then .ok (.nextpow2 a)
      else if op.toNat = 1 then .ok (.log2 a)
      else if op.toNat = 2 then .ok (.log2approx a)
      else .error .reservedSelect

/-- O8. Whatever the integer a host has, the machine evaluates its low 32 bits, for each operation: never clamped, never
refused (30_encoding.md R33). -/
def Obligations.OperandsAreReducedFirst : Prop :=
  ∀ (op : Select) (x : Int) (s : State) (rest : List CommandWord),
    op.toNat ≤ 2 → s.pending = reducedCommand op x :: rest →
      ∃ t y, step s = .next t ∧ t.op = some op ∧ t.a = some (BitVec.ofInt 32 x) ∧
        portFunction op (BitVec.ofInt 32 x) = some y ∧ t.y = some y

/-- O9. A word with the select 3 is refused, gives no value and does not fault (30_encoding.md R35). -/
def Obligations.ReservedSelectIsRefused : Prop :=
  (∀ (w : CommandWord) (rest : List CommandWord) (s : State),
    0x300000000 ≤ w.toNat → s.pending = w :: rest → step s = .refused (.undecoded .reservedSelect)) ∧
  (∀ a : Word, portFunction 3 a = none)

/-- O10. Decoding the word of an operation gives that operation back, with every operand (30_encoding.md sections 1 and
2). -/
def Obligations.DecodeOfEncodeIsIdentity : Prop :=
  ∀ i : Instr, i.wellFormed = true → decode (encode i) = .ok i

/-- O11. A word that decodes is the word of the operation it decodes to, so each operation has one word only
(30_encoding.md sections 1 and 2). -/
def Obligations.EncodeOfDecodeIsIdentity : Prop :=
  ∀ (w : CommandWord) (i : Instr), decode w = .ok i → encode i = w

/-- O12. The word of an operation, as a table word of 34 bits or more, is read as that operation, and the next step runs
it (log entries 7 and 8). -/
def Obligations.TableWordRunsNext : Prop :=
  ∀ (i : Instr) (s : State) (nbits : Nat), 34 ≤ nbits →
    decodeTableWord nbits (encode i).toNat = some i ∧
    step (s.withFetchWord nbits (encode i).toNat) = exec i s

/-- O13. The words of the decode table of the spec (95_test_vectors.md section 3.6). -/
def Obligations.SpecWordsDecode : Prop :=
  decode 0x0FFFFFFFF = .ok (.nextpow2 0xFFFFFFFF) ∧
  decode 0x100000000 = .ok (.log2 0) ∧
  decode 0x2FFFFFFFF = .ok (.log2approx 0xFFFFFFFF) ∧
  decode 0x300000000 = .error .reservedSelect ∧
  decode 0x3FFFFFFFF = .error .reservedSelect

/- NEXTPOW2: spec/40_nextpow2.md R40 to R45. -/

/-- O14. NEXTPOW2 answers a next state for every operand, `y` as the lines of the pseudocode give it, and nothing but the
ports and the observation changes (40_nextpow2.md R40). -/
def Obligations.Nextpow2FollowsThePseudocode : Prop :=
  ∀ (a : Word) (s : State),
    let z : Word := if a.toNat = 0 then 1 else 0
    let t0 := a + z
    let t1 := t0 - 1
    let t2 := t1 ||| t1 >>> 1
    let t3 := t2 ||| t2 >>> 2
    let t4 := t3 ||| t3 >>> 4
    let t5 := t4 ||| t4 >>> 8
    let t6 := t5 ||| t5 >>> 16
    let y := t6 + 1
    exec (.nextpow2 a) s =
      .next { s with op := some 0, a := some a, y := some y, observed := s.observed ++ [y] }

/-- O15. NEXTPOW2 answers the closed form: 1 at 0, the least power of two not below the operand up to 2^31, 0 above; and
`2^(LOG2(a - 1) + 1)` from 2 to 2^31, 1 at 1 and at 0 (40_nextpow2.md R41). -/
def Obligations.Nextpow2HasItsClosedForm : Prop :=
  ∀ (a : Word) (s : State), ∃ y : Word,
    exec (.nextpow2 a) s =
      .next { s with op := some 0, a := some a, y := some y, observed := s.observed ++ [y] } ∧
    (a.toNat = 0 → y.toNat = 1) ∧
    (1 ≤ a.toNat → a.toNat ≤ 2 ^ 31 →
      ∃ k, k ≤ 31 ∧ y.toNat = 2 ^ k ∧ a.toNat ≤ 2 ^ k ∧ ∀ j, a.toNat ≤ 2 ^ j → k ≤ j) ∧
    (2 ^ 31 < a.toNat → y.toNat = 0) ∧
    (2 ≤ a.toNat → a.toNat ≤ 2 ^ 31 → y.toNat = 2 ^ ((log2 (a - 1)).toNat + 1)) ∧
    (a.toNat = 1 → y.toNat = 1)

/-- O16. NEXTPOW2 of 0 is 1, and without the first two lines of the pseudocode the rest would give 0
(40_nextpow2.md R42). -/
def Obligations.Nextpow2OfZeroIsOne : Prop :=
  (∀ s : State, exec (.nextpow2 0) s =
    .next { s with op := some 0, a := some 0, y := some 1, observed := s.observed ++ [1] }) ∧
  sub32 0 1 = 0xFFFFFFFF ∧
  smear (smear (smear (smear (smear (sub32 0 1) 1) 2) 4) 8) 16 = 0xFFFFFFFF ∧
  add32 (smear (smear (smear (smear (smear (sub32 0 1) 1) 2) 4) 8) 16) 1 = 0

/-- O17. NEXTPOW2 of every operand above 2^31 is 0, by the wrap of the final add, and nothing is raised
(40_nextpow2.md R43). -/
def Obligations.Nextpow2WrapsAboveTheLastPower : Prop :=
  ∀ (a : Word) (s : State), 2 ^ 31 < a.toNat →
    2 ^ 31 ≤ (np2T1 a).toNat ∧ np2T6 a = 0xFFFFFFFF ∧
    exec (.nextpow2 a) s =
      .next { s with op := some 0, a := some a, y := some 0, observed := s.observed ++ [0] }

/-- O18. The intermediates of NEXTPOW2 for `a >= 1`: `t0 = a` and `t1 = a - 1`; all later ones are 0 when `t1` is, and
otherwise, with `h` the index of the highest set bit of `t1`, `t6 = 2^(h+1) - 1`, and after the step with shift `n` the
top `min(2n, h+1)` bits from bit `h` downward are set (40_nextpow2.md R44). -/
def Obligations.Nextpow2Intermediates : Prop :=
  ∀ a : Word, 1 ≤ a.toNat →
    (np2T0 a).toNat = a.toNat ∧ (np2T1 a).toNat = a.toNat - 1 ∧
    ((np2T1 a).toNat = 0 →
      np2T2 a = 0 ∧ np2T3 a = 0 ∧ np2T4 a = 0 ∧ np2T5 a = 0 ∧ np2T6 a = 0) ∧
    (∀ h, 2 ^ h ≤ (np2T1 a).toNat → (np2T1 a).toNat < 2 ^ (h + 1) →
      (np2T6 a).toNat = 2 ^ (h + 1) - 1 ∧
      (∀ i, i ≤ h → h < i + 2 → (np2T2 a).getLsbD i = true) ∧
      (∀ i, i ≤ h → h < i + 4 → (np2T3 a).getLsbD i = true) ∧
      (∀ i, i ≤ h → h < i + 8 → (np2T4 a).getLsbD i = true) ∧
      (∀ i, i ≤ h → h < i + 16 → (np2T5 a).getLsbD i = true) ∧
      (∀ i, i ≤ h → h < i + 32 → (np2T6 a).getLsbD i = true))

/-- O19. The four properties of NEXTPOW2, each on the range on which it holds, and each failing outside it
(40_nextpow2.md R45; 90_conflicts.md C1). -/
def Obligations.Nextpow2PropertiesOnTheirRanges : Prop :=
  ∀ a : Word,
    (a.toNat ≤ 2 ^ 31 →
      (∃ k, (nextpow2 a).toNat = 2 ^ k) ∧ a.toNat ≤ (nextpow2 a).toNat ∧
      nextpow2 (nextpow2 a) = nextpow2 a) ∧
    (1 ≤ a.toNat → a.toNat ≤ 2 ^ 31 →
      ∀ k, ¬ (a.toNat ≤ 2 ^ k ∧ 2 ^ k < (nextpow2 a).toNat)) ∧
    (2 ^ 31 < a.toNat →
      (¬ ∃ k, (nextpow2 a).toNat = 2 ^ k) ∧ (nextpow2 a).toNat < a.toNat ∧
      nextpow2 a = 0 ∧ nextpow2 (nextpow2 a) = 1)

/-- O20. Of the three additions of NEXTPOW2 only the last can wrap, exactly when the operand is above 2^31
(43_laws_and_derived_views.md section 1). -/
def Obligations.Nextpow2OnlyTheLastAddWraps : Prop :=
  ∀ a : Word,
    a.toNat + (eqz a).toNat < 2 ^ 32 ∧ 1 ≤ (np2T0 a).toNat ∧
    (2 ^ 32 ≤ (np2T6 a).toNat + 1 ↔ 2 ^ 31 < a.toNat)

/- LOG2: spec/41_log2.md R50 to R53. -/

/-- O21. LOG2 answers a next state for every operand, `y` as the five stages of the pseudocode give it, and nothing but
the ports and the observation changes (41_log2.md R50). -/
def Obligations.Log2FollowsThePseudocode : Prop :=
  ∀ (a : Word) (s : State),
    let s4 : Nat := if 0xFFFF < a.toNat then 16 else 0
    let v1 := a >>> s4
    let s3 : Nat := if 0xFF < v1.toNat then 8 else 0
    let v2 := v1 >>> s3
    let s2 : Nat := if 0xF < v2.toNat then 4 else 0
    let v3 := v2 >>> s2
    let s1 : Nat := if 0x3 < v3.toNat then 2 else 0
    let v4 := v3 >>> s1
    let y : Word := BitVec.ofNat 32 (s4 + s3 + s2 + s1) ||| v4 >>> 1
    exec (.log2 a) s =
      .next { s with op := some 1, a := some a, y := some y, observed := s.observed ++ [y] }

/-- O22. LOG2 answers the closed form: 0 at 0, else the one `k` with `2^k <= a < 2^(k+1)`, on the whole of
[1, 2^32 - 1]; and the bits of the result are the five stage decisions (41_log2.md R51; 90_conflicts.md C7). -/
def Obligations.Log2HasItsClosedForm : Prop :=
  ∀ (a : Word) (s : State), ∃ y : Word,
    exec (.log2 a) s =
      .next { s with op := some 1, a := some a, y := some y, observed := s.observed ++ [y] } ∧
    (a.toNat = 0 → y.toNat = 0) ∧
    (1 ≤ a.toNat → 2 ^ y.toNat ≤ a.toNat ∧ a.toNat < 2 ^ (y.toNat + 1) ∧
      ∀ k, 2 ^ k ≤ a.toNat → a.toNat < 2 ^ (k + 1) → k = y.toNat) ∧
    y.toNat ≤ 31 ∧
    y.getLsbD 4 = decide (0xFFFF < a.toNat) ∧ y.getLsbD 3 = decide (0xFF < (log2V1 a).toNat) ∧
    y.getLsbD 2 = decide (0xF < (log2V2 a).toNat) ∧ y.getLsbD 1 = decide (0x3 < (log2V3 a).toNat) ∧
    y.getLsbD 0 = (log2V4 a).getLsbD 1

/-- O23. LOG2 of 0 is 0: every threshold test is false and every shift is zero, and nothing is raised
(41_log2.md R52). -/
def Obligations.Log2OfZeroIsZero : Prop :=
  (gtu 0 0xFFFF = 0 ∧ gtu (log2V1 0) 0xFF = 0 ∧ gtu (log2V2 0) 0xF = 0 ∧ gtu (log2V3 0) 0x3 = 0) ∧
  (log2S4 0 = 0 ∧ log2S3 0 = 0 ∧ log2S2 0 = 0 ∧ log2S1 0 = 0) ∧
  ∀ s : State, exec (.log2 0) s =
    .next { s with op := some 1, a := some 0, y := some 0, observed := s.observed ++ [0] }

/-- O24. The ranges of the intermediates of LOG2, and the place of the highest set bit after each stage
(41_log2.md R53). -/
def Obligations.Log2IntermediateRanges : Prop :=
  ∀ a : Word,
    (log2V1 a).toNat ≤ 0xFFFF ∧ (log2V2 a).toNat ≤ 0xFF ∧ (log2V3 a).toNat ≤ 0xF ∧ (log2V4 a).toNat ≤ 0x3 ∧
    ((log2R1 a).toNat = 0 ∨ (log2R1 a).toNat = 16) ∧
    ((log2R2 a).toNat = 0 ∨ (log2R2 a).toNat = 8 ∨ (log2R2 a).toNat = 16 ∨ (log2R2 a).toNat = 24) ∧
    ((log2R3 a).toNat % 4 = 0 ∧ (log2R3 a).toNat ≤ 28) ∧
    ((log2R4 a).toNat % 2 = 0 ∧ (log2R4 a).toNat ≤ 30) ∧
    (log2 a).toNat ≤ 31 ∧
    (1 ≤ a.toNat →
      ∀ v r : Word,
        (v = log2V1 a ∧ r = log2R1 a ∨ v = log2V2 a ∧ r = log2R2 a ∨
          v = log2V3 a ∧ r = log2R3 a ∨ v = log2V4 a ∧ r = log2R4 a) →
        r.toNat ≤ (log2 a).toNat ∧ 2 ^ ((log2 a).toNat - r.toNat) ≤ v.toNat ∧
          v.toNat < 2 ^ ((log2 a).toNat - r.toNat + 1))

/-- O25. Every right shift of LOG2 is by its stage's weight or by 0, and every left shift moves one bit
(43_laws_and_derived_views.md section 1). -/
def Obligations.Log2ShiftAmounts : Prop :=
  (∀ v threshold : Word, (gtu v threshold).toNat ≤ 1) ∧
  ∀ a : Word,
    ((log2S4 a).toNat = 0 ∨ (log2S4 a).toNat = 16) ∧ ((log2S3 a).toNat = 0 ∨ (log2S3 a).toNat = 8) ∧
    ((log2S2 a).toNat = 0 ∨ (log2S2 a).toNat = 4) ∧ ((log2S1 a).toNat = 0 ∨ (log2S1 a).toNat = 2)

/- LOG2APPROX: spec/42_log2approx.md R60 to R66. -/

/-- O26. LOG2APPROX answers a next state for every operand, `y` the same value in every evaluation, and nothing but the
ports and the observation changes (42_log2approx.md R61). Nothing is said of the value, which is free at 0 and on
`APPROX_DIV` (log entries 5 and 6). -/
def Obligations.Log2approxIsAFunctionOfTheOperand : Prop :=
  ∀ a : Word, ∃ y : Word, ∀ s : State,
    exec (.log2approx a) s =
      .next { s with op := some 2, a := some a, y := some y, observed := s.observed ++ [y] }

/-- O27. There is a set of operands `a >= 1` outside which LOG2APPROX answers the result of LOG2 for every `a >= 1`
(42_log2approx.md R62): the machine's own set, for any set and any function in its place. -/
def Obligations.Log2approxAgreesOffTheSet : Prop :=
  (∀ (a : Word) (s : State), ∃ y : Word,
    exec (.log2approx a) s =
      .next { s with op := some 2, a := some a, y := some y, observed := s.observed ++ [y] } ∧
    (a.toNat = 0 ∨ approxDivMem Config.approxDiv a = true ∨ y = log2 a)) ∧
  (∀ (free : Word → Word) (div : Word → Bool), HOffDiv (approxOf free div) div) ∧
  (∀ div : Word → Bool, approxDivMem div 0 = false)

/-- O28. The form the model gives `APPROX` (log entry 5) loses no admissible pair: every function and set as the spec ties
them are of that form, any value at 0 and on the set among them, and LOG2 itself with the empty set and 0 at 0
(42_log2approx.md sections 2 and 3). -/
def Obligations.ApproxFormIsComplete : Prop :=
  (∀ (f : Word → Word) (div : Word → Bool), HOffDiv f div → ∀ a, approxOf f div a = f a) ∧
  (∀ (div : Word → Bool) (a v : Word), a.toNat = 0 ∨ approxDivMem div a = true →
    ∃ f, HOffDiv f div ∧ f a = v) ∧
  (∀ f : Word → Word, HOffDiv f (fun _ => false) ∧ HZero f ↔ ∀ a, f a = log2 a)

/-- O29. `H_range` follows from `H_off_div` together with `H_low_by_one`: where the approximate result is one too low on the
whole set, it is at most 31 for every `a >= 1`; and on a set of powers of two it is then the exponent less one
(42_log2approx.md section 3). The premises but the first are assumptions about the hardware, no rules of the spec. -/
def Obligations.LowByOneGivesRange : Prop :=
  ∀ (f : Word → Word) (div : Word → Bool), HOffDiv f div → HLowByOne f div →
    HRange f ∧
    (HPow2Only div → ∀ a : Word, approxDivMem div a = true → a.toNat = 2 ^ ((f a).toNat + 1))

/- Properties relating the operations: spec/43_laws_and_derived_views.md R73 to R78. -/

/-- O30. LOG2 is monotone; it is 31 exactly from 2^31 and 0 exactly up to 1 (43_laws_and_derived_views.md R73). -/
def Obligations.Log2IsMonotone : Prop :=
  (∀ a b : Word, a.toNat ≤ b.toNat → (log2 a).toNat ≤ (log2 b).toNat) ∧
  (∀ a : Word, (log2 a).toNat = 31 ↔ 2 ^ 31 ≤ a.toNat) ∧
  (∀ a : Word, (log2 a).toNat = 0 ↔ a.toNat ≤ 1)

/-- O31. NEXTPOW2 is monotone up to 2^31 and not on the whole of its domain (43_laws_and_derived_views.md R74). -/
def Obligations.Nextpow2IsMonotoneBelowTheWrap : Prop :=
  (∀ a b : Word, a.toNat ≤ b.toNat → b.toNat ≤ 2 ^ 31 → (nextpow2 a).toNat ≤ (nextpow2 b).toNat) ∧
  nextpow2 0x80000000 = 0x80000000 ∧ nextpow2 0x80000001 = 0

/-- O32. An operand is a power of two if and only if NEXTPOW2 leaves it unchanged (43_laws_and_derived_views.md R75). -/
def Obligations.PowerOfTwoTest : Prop :=
  ∀ a : Word, (∃ k, a.toNat = 2 ^ k) ↔ nextpow2 a = a

/-- O33. LOG2 chained onto NEXTPOW2 at once, on the same machine, gives the exponent of the power
(43_laws_and_derived_views.md R76). -/
def Obligations.Log2OfNextpow2 : Prop :=
  ∀ (a : Word) (s : State), ∃ (p k : Word) (t u : State),
    exec (.nextpow2 a) s = .next t ∧ t.y = some p ∧ exec (.log2 p) t = .next u ∧ u.y = some k ∧
    (1 ≤ a.toNat → a.toNat ≤ 2 ^ 31 →
      ((∃ j, a.toNat = 2 ^ j) → k = log2 a) ∧
      ((¬ ∃ j, a.toNat = 2 ^ j) → k.toNat = (log2 a).toNat + 1) ∧
      (a.toNat ≤ 2 ^ k.toNat ∧ ∀ j, a.toNat ≤ 2 ^ j → k.toNat ≤ j) ∧
      p.toNat = 2 ^ k.toNat) ∧
    (a.toNat = 0 → k = 0) ∧ (2 ^ 31 < a.toNat → k = 0)

/-- O34. From 1 to 2^31 the operand lies between two powers of two, consecutive or equal
(43_laws_and_derived_views.md R77). -/
def Obligations.BracketingByPowers : Prop :=
  ∀ a : Word, 1 ≤ a.toNat → a.toNat ≤ 2 ^ 31 →
    2 ^ (log2 a).toNat ≤ a.toNat ∧ a.toNat ≤ (nextpow2 a).toNat ∧ (nextpow2 a).toNat < 2 * a.toNat ∧
    ((∃ j, a.toNat = 2 ^ j) → (nextpow2 a).toNat = 2 ^ (log2 a).toNat) ∧
    ((¬ ∃ j, a.toNat = 2 ^ j) → (nextpow2 a).toNat = 2 * 2 ^ (log2 a).toNat)

/-- O35. The degenerate results: NEXTPOW2 is 0 exactly above 2^31, LOG2 is 0 exactly at 0 and 1
(43_laws_and_derived_views.md R78). -/
def Obligations.DegenerateResults : Prop :=
  nextpow2 0 = 1 ∧ log2 0 = 0 ∧
  ∀ a : Word, (nextpow2 a = 0 ↔ 2 ^ 31 < a.toNat) ∧ (log2 a = 0 ↔ a.toNat = 0 ∨ a.toNat = 1)

/- The derived views: spec/43_laws_and_derived_views.md R80 to R82. -/

/-- O36. `LZC` counts the 0 bits above the highest set bit, a value of [0, 31]; it is 0 exactly from 2^31, and 31 at 1
(43_laws_and_derived_views.md R80). -/
def Obligations.LeadingZeroCountView : Prop :=
  (∀ a : Word, 1 ≤ a.toNat → ∃ n, lzc a = some n ∧ n = 31 - (log2 a).toNat ∧ n ≤ 31 ∧
    a.getLsbD (31 - n) = true ∧ (∀ i, 31 - n < i → i ≤ 31 → a.getLsbD i = false) ∧
    (n = 0 ↔ 2 ^ 31 ≤ a.toNat)) ∧
  lzc 1 = some 31

/-- O37. `BITLEN` is the number of bits needed to write the operand, a value of [1, 32]; with `LZC` it makes 32; and
NEXTPOW2 is 2 to the bit length of the operand less one (43_laws_and_derived_views.md R81). -/
def Obligations.BitLengthView : Prop :=
  (∀ a : Word, 1 ≤ a.toNat → ∃ n m, bitlen a = some n ∧ lzc a = some m ∧ n = (log2 a).toNat + 1 ∧
    1 ≤ n ∧ n ≤ 32 ∧ a.toNat < 2 ^ n ∧ (∀ j, a.toNat < 2 ^ j → n ≤ j) ∧ n + m = 32) ∧
  (∀ a : Word, 2 ≤ a.toNat → a.toNat ≤ 2 ^ 31 →
    ∃ n, bitlen (a - 1) = some n ∧ (nextpow2 a).toNat = 2 ^ n)

/-- O38. The model gives the two views no value at 0 and a value everywhere else; the spec leaves 0 undefined, and no value
there is the model's choice of log entry 10 (43_laws_and_derived_views.md section 3). -/
def Obligations.ViewsStopAtZeroOnly : Prop :=
  ∀ a : Word, (lzc a = none ↔ a.toNat = 0) ∧ (bitlen a = none ↔ a.toNat = 0)

/- The machine: spec/10_state.md, 20_memory.md, 60_exceptions.md, 70_reset_and_hazards.md. -/

/-- O39. A step whose next word decodes to an operation is `exec` of that operation, with the word taken from those still
to be presented (70_reset_and_hazards.md sections 3 and 5; log entry 1). -/
def Obligations.StepRunsTheDecodedOperation : Prop :=
  ∀ (s : State) (w : CommandWord) (rest : List CommandWord) (i : Instr),
    s.pending = w :: rest → decode w = .ok i → step s = exec i { s with pending := rest }

/-- O40. Whatever the two states, an operation answers a next state from both, with the same `op`, `a` and `y`, and neither
the words still to be presented nor the earlier observation is touched: no earlier port, word or observation can be told
from the result (10_state.md section 2; 20_memory.md sections 2 and 3). -/
def Obligations.ResultDependsOnThePairAlone : Prop :=
  ∀ (i : Instr) (s s' : State), ∃ t t' : State, exec i s = .next t ∧ exec i s' = .next t' ∧
    t.op = t'.op ∧ t.a = t'.a ∧ t.y = t'.y ∧ t.y.isSome = true ∧
    t.pending = s.pending ∧ t'.pending = s'.pending ∧
    s.observed <+: t.observed ∧ s'.observed <+: t'.observed

/-- O41. Presenting the same pair again gives the same `y` and changes nothing but the observation, which takes the same
value again (20_memory.md section 2). -/
def Obligations.PresentingAgainChangesNothing : Prop :=
  ∀ (i : Instr) (s : State), ∃ (t u : State) (y : Word),
    exec i s = .next t ∧ t.y = some y ∧ exec i t = .next u ∧
    u = { t with observed := s.observed ++ [y, y] }

/-- O42. At reset no port has a meaning, nothing is presented, and the two invariants hold; the empty run and the undriven
ports are log entries 1 and 2 (10_state.md section 3; 70_reset_and_hazards.md section 1). -/
def Obligations.ResetMeetsTheInvariants : Prop :=
  State.reset.op = none ∧ State.reset.a = none ∧ State.reset.y = none ∧
  PortsAgree State.reset ∧ HostObeys State.reset

/-- O43. The first evaluation after reset gives the same result as a later one with the same pair, from any state whatever
(10_state.md section 3). -/
def Obligations.FirstEvaluationEqualsALaterOne : Prop :=
  ∀ (w : CommandWord) (s : State), opField w ≠ 3 →
    ∃ t u y, step (State.reset.presentWord w) = .next t ∧ step (s.presentWord w) = .next u ∧
      t.op = some (opField w) ∧ t.a = some (aField w) ∧ t.y = some y ∧
      u.op = t.op ∧ u.a = t.a ∧ u.y = t.y ∧ commandResult w = some y

/-- O44. Every step keeps the ports in agreement: wherever `op` and `a` hold defined values, `y` is `F(op, a)`
(10_state.md section 2). The host's run in the state is log entry 1. -/
def Obligations.StepKeepsPortsInAgreement : Prop :=
  ∀ s t : State, PortsAgree s → step s = .next t → PortsAgree t

/-- O45. Where the host presents no reserved word, every step makes an evaluation and leaves one word fewer, until none is
left, and the host's side still holds (70_reset_and_hazards.md section 2). That the step with no word left is refused is
log entry 3. -/
def Obligations.ObeyingHostsRunToTheEnd : Prop :=
  ∀ s : State, HostObeys s →
    (s.pending = [] ∧ step s = .refused .nothingPresented) ∨
    ∃ t, step s = .next t ∧ HostObeys t ∧ PortsAgree t ∧ t.pending.length + 1 = s.pending.length

/-- O46. A step has two outcomes: a result, or a refusal of a reserved word or of an empty run; none faults, and every
operation runs on every operand (60_exceptions.md section 1; log entry 3 for the empty run). -/
def Obligations.StepsNeverFault : Prop :=
  (∀ s : State,
    (∃ t, step s = .next t) ∨
    (s.pending = [] ∧ step s = .refused .nothingPresented) ∨
    (∃ w rest, s.pending = w :: rest ∧ opField w = 3 ∧ step s = .refused (.undecoded .reservedSelect))) ∧
  (∀ (s : State) (f : Fault), step s ≠ .fault f) ∧
  (∀ (i : Instr) (s : State), ∃ t, exec i s = .next t)

/-- O47. A run observes the list of the `y` values, one for each word in order, whatever the words before it gave; and a run
is refused from its first reserved word on, however many more steps are asked for (70_reset_and_hazards.md R106). -/
def Obligations.RunObservesOneResultForEachWord : Prop :=
  (∀ (ws rest : List CommandWord) (s : State), (∀ w ∈ ws, opField w ≠ 3) → s.pending = ws ++ rest →
    ∃ t ys, Host.Core.run Sys2Proof.core ws.length s = .next t ∧ t.pending = rest ∧
      t.observed = s.observed ++ ys ∧ ys.map some = ws.map commandResult) ∧
  (∀ (ws rest : List CommandWord) (w : CommandWord) (s : State) (n : Nat),
    (∀ v ∈ ws, opField v ≠ 3) → opField w = 3 → s.pending = ws ++ w :: rest → ws.length < n →
      Host.Core.run Sys2Proof.core n s = .refused (.undecoded .reservedSelect))

/-- O48. Requests to any of several instances, in any order, are all served. Each instance keeps its words still to be
presented and observes the results of its own requests in order; one to which no request goes is unchanged, ports and all;
one that served shows on `op`, `a` and `y` the pair and the result of its own last request (20_memory.md section 3; log
entry 14 for the form of a bank). -/
def Obligations.InstancesShareNothing : Prop :=
  ∀ (bank : List State) (qs : List (Nat × CommandWord)),
    (∀ q ∈ qs, q.1 < bank.length ∧ opField q.2 ≠ 3) →
      ∃ bank', serveAll bank qs = some bank' ∧ bank'.length = bank.length ∧
        ∀ (k : Nat) (s : State), bank[k]? = some s →
          ∃ t ys, bank'[k]? = some t ∧ t.pending = s.pending ∧ t.observed = s.observed ++ ys ∧
            ys.map some = ((qs.filter fun q => q.1 = k).map fun q => commandResult q.2) ∧
            ((∀ q ∈ qs, q.1 ≠ k) → t = s) ∧
            (∀ q, (qs.filter fun q => q.1 = k).getLast? = some q →
              t.op = some (opField q.2) ∧ t.a = some (aField q.2) ∧ t.y.isSome = true ∧ t.y = commandResult q.2)

/-- O49. An implementation with `LATENCY` pipeline registers, whatever they hold at reset, shows at edge `n + LATENCY` the
result of the pair presented at edge `n`; with the model's `LATENCY` it shows each result at once
(70_reset_and_hazards.md section 4; log entry 9). -/
def Obligations.PipelineDelaysEveryResultAlike : Prop :=
  (∀ (regs : List (Option Word)) (ws : List CommandWord),
    (pipeRun regs ws).length = ws.length ∧
    ∀ n, n + regs.length < ws.length → (pipeRun regs ws)[n + regs.length]? = ws[n]?.map commandResult) ∧
  (∀ (regs : List (Option Word)) (ws : List CommandWord), regs.length = Config.latency →
    pipeRun regs ws = ws.map commandResult)

/-- O50. The work of an evaluation is fixed: straight-line code of 14 primitives gives NEXTPOW2 and one of 17 gives LOG2,
with the counts of the table, for every operand (70_reset_and_hazards.md section 4). -/
def Obligations.WorkIsTheSameForEveryOperand : Prop :=
  (∀ a : Word, nodesResult nextpow2Nodes a = some (nextpow2 a)) ∧
  (nextpow2Nodes.length = 14 ∧ countPrim .eqz nextpow2Nodes = 1 ∧ countPrim .add32 nextpow2Nodes = 2 ∧
    countPrim .sub32 nextpow2Nodes = 1 ∧ countPrim .shr32 nextpow2Nodes = 5 ∧
    countPrim .or32 nextpow2Nodes = 5) ∧
  (∀ a : Word, nodesResult log2Nodes a = some (log2 a)) ∧
  (log2Nodes.length = 17 ∧ countPrim .gtu log2Nodes = 4 ∧ countPrim .shl32 log2Nodes = 4 ∧
    countPrim .shr32 log2Nodes = 5 ∧ countPrim .or32 log2Nodes = 4)

/- The written form: spec/30_encoding.md R36. -/

/-- O51. A line whose operand has a value runs: its result is that of its operation on the reduced operand, under the
line's name, and no other name changes (30_encoding.md section 5). -/
def Obligations.LineNamesItsResult : Prop :=
  ∀ (names : List (Name × Word)) (s : State) (l : Line) (x : Int), sourceValue names l.operand = some x →
    ∃ y t, runLine names s l = .ok ((l.dest, y) :: names, t) ∧
      portFunction (mnemonicSelect l.mnemonic) (BitVec.ofInt 32 x) = some y ∧
      t.y = some y ∧ t.pending = s.pending ∧ t.observed = s.observed ++ [y]

/-- O52. Lines whose operands are literals or earlier names run to the end, from the top to the bottom, and name one result
for each line (30_encoding.md section 5). -/
def Obligations.WellFormedLinesRunToTheEnd : Prop :=
  ∀ (ls : List Line) (names : List (Name × Word)) (s : State),
    linesWellFormed (names.map Prod.fst) ls = true →
      ∃ new t, runLines names s ls = .ok (new ++ names, t) ∧ new.map Prod.fst = (ls.map Line.dest).reverse ∧
        t.pending = s.pending ∧ t.observed = s.observed ++ (new.map Prod.snd).reverse

/-- O53. A text is read as a mnemonic exactly when it is that mnemonic's spelling up to case, and so in any case
(30_encoding.md section 5). -/
def Obligations.MnemonicsAreReadInAnyCase : Prop :=
  ∀ text : List Char,
    (mnemonicOf text = some .nextpow2 ↔
      text.map Char.toUpper = ['N', 'E', 'X', 'T', 'P', 'O', 'W', '2']) ∧
    (mnemonicOf text = some .log2 ↔ text.map Char.toUpper = ['L', 'O', 'G', '2']) ∧
    (mnemonicOf text = some .log2approx ↔
      text.map Char.toUpper = ['L', 'O', 'G', '2', 'A', 'P', 'P', 'R', 'O', 'X']) ∧
    mnemonicOf (text.map Char.toUpper) = mnemonicOf text ∧ mnemonicOf (text.map Char.toLower) = mnemonicOf text
end

