-- ==== Sys2Proof/Laws/Command.lean ====
section
/-! SUPPORT. The fields of a command word, what the decoder answers, and what `exec` answers. -/

namespace Sys2Proof

@[simp] theorem opField_commandWord (op : Select) (a : Word) : opField (commandWord op a) = op := by
  ext i hi
  simp only [opField, commandWord, BitVec.getElem_extractLsb', BitVec.getLsbD_append]
  rw [if_neg (by omega), show 32 + i - 32 = i by omega, BitVec.getLsbD_eq_getElem hi]

@[simp] theorem aField_commandWord (op : Select) (a : Word) : aField (commandWord op a) = a := by
  ext i hi
  simp only [aField, commandWord, BitVec.getElem_extractLsb', BitVec.getLsbD_append]
  rw [if_pos (by omega), show 0 + i = i by omega, BitVec.getLsbD_eq_getElem hi]

/-- The four values of the select. -/
theorem select_cases (op : Select) :
    op = selNextpow2 ∨ op = selLog2 ∨ op = selLog2approx ∨ op = 3 := by
  revert op; decide

/-- The check on command words is that the select is not 3 (spec/30_encoding.md R35). -/
theorem commandWellFormed_iff (w : CommandWord) : commandWellFormed w = true ↔ opField w ≠ 3 := by
  simp [commandWellFormed, opField]

namespace Machine

/-- A meaning evaluates the function of spec/10_state.md R16 at the operation's select and operand, and does nothing
else. -/
theorem exec_evaluates (i : Instr) :
    ∃ y, portFunction i.select i.operand = some y ∧
      ∀ s, exec i s = .next (s.evaluate i.select i.operand y) := by
  cases i with
  | nextpow2 a => exact ⟨nextpow2 a, rfl, fun _ => rfl⟩
  | log2 a => exact ⟨log2 a, rfl, fun _ => rfl⟩
  | log2approx a => exact ⟨approx a, rfl, fun _ => rfl⟩

/-- A word whose select is not 3 decodes to the operation of that select on the word's operand. -/
theorem decode_ok (w : CommandWord) (h : opField w ≠ 3) :
    ∃ i, decode w = .ok i ∧ i.select = opField w ∧ i.operand = aField w := by
  rcases select_cases (opField w) with e | e | e | e
  · exact ⟨.nextpow2 (aField w), by simp [decode, e], e.symm, rfl⟩
  · exact ⟨.log2 (aField w), by simp [decode, e, selLog2, selNextpow2], e.symm, rfl⟩
  · exact ⟨.log2approx (aField w), by simp [decode, e, selLog2, selNextpow2, selLog2approx], e.symm, rfl⟩
  · exact absurd e h

/-- A word whose select is 3 decodes to no operation. -/
theorem decode_error (w : CommandWord) (h : opField w = 3) : decode w = .error .reservedSelect := by
  simp [decode, h, selLog2, selNextpow2, selLog2approx]

end Machine

end Sys2Proof
end

