-- ==== Sys2Proof/Laws/Ops.lean ====
section
/-! SUPPORT. What the two shared steps of the pseudocode do: a propagation step of NEXTPOW2 and a stage of LOG2. -/

namespace Sys2Proof.Machine

/-- A bit after a propagation step: the bit itself or the one `n` places above it. -/
theorem smear_getLsbD (x : Word) (n i : Nat) :
    (smear x n).getLsbD i = (x.getLsbD i || x.getLsbD (n + i)) := by
  simp [smear, or32, shr32]

/-- The highest set bit of `x` is at most at `h`, and the `n` bits from `h` downward are set. -/
def TopBitsSet (x : Word) (h n : Nat) : Prop :=
  x.toNat < 2 ^ (h + 1) ∧ ∀ i, i ≤ h → h < i + n → x.getLsbD i = true

/-- A propagation step by `n` doubles the run of set bits (spec/40_nextpow2.md R44). -/
theorem smear_topBitsSet {x : Word} {h n : Nat} (H : TopBitsSet x h n) : TopBitsSet (smear x n) h (2 * n) := by
  refine ⟨?_, fun i hi hn => ?_⟩
  · have hs : (x >>> n).toNat ≤ x.toNat := by
      rw [BitVec.toNat_ushiftRight, Nat.shiftRight_eq_div_pow]
      exact Nat.div_le_self _ _
    rw [smear, or32, shr32, BitVec.toNat_or]
    exact Nat.or_lt_two_pow H.1 (Nat.lt_of_le_of_lt hs H.1)
  · rw [smear_getLsbD]
    by_cases g : h < i + n
    · rw [H.2 i hi g, Bool.true_or]
    · rw [H.2 (n + i) (by omega) (by omega), Bool.or_true]

/-- A stage of LOG2: either its test holds, it shifts by its weight `2^k`, or neither (spec/41_log2.md R50). -/
theorem stage_cases (v t : Word) (k : Nat) (hk : k ≤ 4) :
    (t.toNat < v.toNat ∧ (stageShift v t k).toNat = 2 ^ k ∧
      (shr32 v (stageShift v t k).toNat).toNat = v.toNat / 2 ^ 2 ^ k) ∨
    (v.toNat ≤ t.toNat ∧ (stageShift v t k).toNat = 0 ∧
      (shr32 v (stageShift v t k).toNat).toNat = v.toNat) := by
  by_cases h : t.toNat < v.toNat
  · have hs : (stageShift v t k).toNat = 2 ^ k := by
      have hp : 2 ^ k < 2 ^ 32 := Nat.pow_lt_pow_right (by decide) (by omega)
      rw [stageShift, gtu, if_pos h, shl32, BitVec.toNat_shiftLeft, Nat.shiftLeft_eq]
      exact (congrArg (· % 2 ^ 32) (Nat.one_mul _)).trans (Nat.mod_eq_of_lt hp)
    exact .inl ⟨h, hs, by rw [hs, shr32, BitVec.toNat_ushiftRight, Nat.shiftRight_eq_div_pow]⟩
  · have hs : (stageShift v t k).toNat = 0 := by
      rw [stageShift, gtu, if_neg h, shl32, BitVec.toNat_shiftLeft, Nat.shiftLeft_eq]
      exact (congrArg (· % 2 ^ 32) (Nat.zero_mul _)).trans rfl
    exact .inr ⟨by omega, hs, by rw [hs, shr32, BitVec.toNat_ushiftRight]; rfl⟩

end Sys2Proof.Machine
end

