-- ==== Sys2Proof/Laws/PerInstr.lean ====
section
/-! SUPPORT. A statement about every operation as syntax, one lemma for each constructor: its select is one of the three
codes and its select and operand are the two fields of its command word. -/

namespace Sys2Proof.Laws.Fields

/-- The word of `i` holds the operation's select, which is not the reserved one, and its operand (spec/30_encoding.md R30,
R31). -/
def Statement (i : Instr) : Prop :=
  opField (encode i) = i.select ∧ aField (encode i) = i.operand ∧ i.select ≠ 3 ∧ i.wellFormed = true

theorem nextpow2 (a : Word) : Statement (.nextpow2 a) :=
  ⟨opField_commandWord _ _, aField_commandWord _ _, (by decide : selNextpow2 ≠ 3), rfl⟩

theorem log2 (a : Word) : Statement (.log2 a) :=
  ⟨opField_commandWord _ _, aField_commandWord _ _, (by decide : selLog2 ≠ 3), rfl⟩

theorem log2approx (a : Word) : Statement (.log2approx a) :=
  ⟨opField_commandWord _ _, aField_commandWord _ _, (by decide : selLog2approx ≠ 3), rfl⟩

end Sys2Proof.Laws.Fields
end

