-- ==== Sys2Proof/Laws/State.lean ====
section
/-! SUPPORT. What each update of the state does to each field. -/

namespace Sys2Proof.Machine

variable (s : State) (sel : Select) (x v : Word) (w : CommandWord)

@[simp] theorem evaluate_op : (s.evaluate sel x v).op = some sel := rfl
@[simp] theorem evaluate_a : (s.evaluate sel x v).a = some x := rfl
@[simp] theorem evaluate_y : (s.evaluate sel x v).y = some v := rfl
@[simp] theorem evaluate_pending : (s.evaluate sel x v).pending = s.pending := rfl
@[simp] theorem evaluate_observed : (s.evaluate sel x v).observed = s.observed ++ [v] := rfl

@[simp] theorem presentWord_op : (s.presentWord w).op = s.op := rfl
@[simp] theorem presentWord_a : (s.presentWord w).a = s.a := rfl
@[simp] theorem presentWord_y : (s.presentWord w).y = s.y := rfl
@[simp] theorem presentWord_pending : (s.presentWord w).pending = w :: s.pending := rfl
@[simp] theorem presentWord_observed : (s.presentWord w).observed = s.observed := rfl

@[simp] theorem reset_op : State.reset.op = none := rfl
@[simp] theorem reset_a : State.reset.a = none := rfl
@[simp] theorem reset_y : State.reset.y = none := rfl
@[simp] theorem reset_pending : State.reset.pending = [] := rfl
@[simp] theorem reset_observed : State.reset.observed = [] := rfl

end Sys2Proof.Machine
end

