-- ==== Sys2Proof/Laws/Step.lean ====
section
/-! SUPPORT. Everything a step can do. -/

namespace Sys2Proof.Machine

/-- The step with a word to present: what the decoder answers decides. -/
theorem step_pending {s : State} {w : CommandWord} {rest : List CommandWord} (h : s.pending = w :: rest) :
    step s = match decode w with
      | .ok i => exec i { s with pending := rest }
      | .error e => .refused (.undecoded e) := by
  cases hd : decode w <;> simp only [step, h, hd]

/-- The step with a word whose select is not 3: that word leaves `pending` and is evaluated, and nothing else happens. -/
theorem step_evaluates {s : State} {w : CommandWord} {rest : List CommandWord} (h : s.pending = w :: rest)
    (hw : opField w ≠ 3) :
    ∃ y, commandResult w = some y ∧
      step s = .next (State.evaluate { s with pending := rest } (opField w) (aField w) y) := by
  obtain ⟨i, hd, hs, ho⟩ := decode_ok w hw
  obtain ⟨y, hy, he⟩ := exec_evaluates i
  refine ⟨y, by rw [commandResult, ← hs, ← ho, hy], ?_⟩
  rw [step_pending h, hd]
  simp only [he, hs, ho]

/-- A step that answers a next state evaluated the word presented next. -/
theorem step_next_cases {s t : State} (h : step s = .next t) :
    ∃ w rest y, s.pending = w :: rest ∧ opField w ≠ 3 ∧ commandResult w = some y ∧
      t = State.evaluate { s with pending := rest } (opField w) (aField w) y := by
  cases hp : s.pending with
  | nil => simp [step, hp] at h
  | cons w rest =>
    by_cases hw : opField w = 3
    · simp [step_pending hp, decode_error w hw] at h
    · obtain ⟨y, hy, he⟩ := step_evaluates hp hw
      rw [he] at h
      exact ⟨w, rest, y, rfl, hw, hy, by injection h with h; exact h.symm⟩

end Sys2Proof.Machine
end

