-- ==== Sys2Proof/Tests/Slice0.lean ====
section
/-! SUPPORT. Tests with expected results from spec/95_test_vectors.md, and a witness for each statement that has
hypotheses. -/

namespace Sys2Proof.Tests

open Sys2Proof.Machine

/-- The value on `y` after the one step that runs a table word from reset. -/
def yOf (w : Nat) : Option Word :=
  match step (State.reset.withFetchWord 40 w) with
  | .next t => t.y
  | _ => none

/-- A state with no port driven that is to present the words `ws`. -/
def presenting (ws : List CommandWord) : State := { State.reset with pending := ws }

/- Ill-formed terms, each refused by its check. -/

/-- The word of program P6 with the select 3 (95_test_vectors.md section 4, P6). -/
theorem test_wellFormed_refuses_reserved : commandWellFormed 0x300000005 = false := by decide

theorem test_wellFormed_accepts_largest : commandWellFormed 0x2FFFFFFFF = true := by decide

/-- A line that reads a name no earlier line gave. -/
theorem test_linesWellFormed_refuses_unknown_name :
    linesWellFormed [] [⟨['q'], .log2, .name ['p']⟩] = false := by decide

/- Words written out from 30_encoding.md R31 and 95_test_vectors.md section 3.6, select bits first. -/

theorem test_decode_nextpow2 : decode 0b0011111111111111111111111111111111 = .ok (.nextpow2 0xFFFFFFFF) := by rfl

theorem test_decode_log2 : decode 0b0111111111111111111111111111111111 = .ok (.log2 0xFFFFFFFF) := by rfl

theorem test_decode_log2approx : decode 0b1011111111111111111111111111111111 = .ok (.log2approx 0xFFFFFFFF) := by rfl

theorem test_decode_reserved : decode 0b1111111111111111111111111111111111 = .error .reservedSelect := by rfl

theorem test_decodeNat_too_wide : decodeNat 0x400000000 = .error .notACommandWord := by rfl

/-- 95_test_vectors.md section 1, S8: the word of LOG2 1023 as a table word of 40 bits. -/
theorem test_decodeTableWord_log2 : decodeTableWord 40 0x1000003FF = some (.log2 1023) := by rfl

theorem test_encode_log2 : encode (.log2 1023) = 0x1000003FF := by rfl

/- One step of each operation. -/

/-- 95_test_vectors.md section 1, S5. -/
theorem test_nextpow2_1025 : yOf 0x000000401 = some 2048 := by decide

/-- 95_test_vectors.md section 3.1: the smallest operand that wraps. -/
theorem test_nextpow2_wraps : yOf 0x080000001 = some 0 := by decide

/-- 95_test_vectors.md section 3.2: `0xFFFF` does not exceed the threshold `0xFFFF`. -/
theorem test_log2_threshold : yOf 0x10000FFFF = some 15 := by decide

/-- 95_test_vectors.md section 3.2: unsigned compare and logical shift with bit 31 set. -/
theorem test_log2_bit31 : yOf 0x1FFFFFFFF = some 31 := by decide

/-- LOG2APPROX runs on 0 and gives some value (60_exceptions.md R90, the table). -/
theorem test_log2approx_runs_at_zero : (yOf 0x200000000).isSome = true := by decide

/-- 95_test_vectors.md section 3.3: 1023 and 1024, with 1024 in the set and one too low there. -/
theorem test_approxOf_off_and_on_the_set :
    approxOf (fun _ => 9) (fun a => a == 1024) 1023 = 9 ∧ approxOf (fun _ => 9) (fun a => a == 1024) 1024 = 9 ∧
      approxOf (fun _ => 9) (fun _ => false) 1024 = 10 := by decide

/-- The reserved select is refused (95_test_vectors.md section 4, P6). -/
theorem test_reserved_refused :
    step (presenting [0x300000005]) = .refused (.undecoded .reservedSelect) := by rfl

/- Traces of the intermediates. -/

/-- 95_test_vectors.md section 2.1, the row of `0x00000401`. -/
theorem test_nextpow2_trace :
    [np2T0 0x401, np2T1 0x401, np2T2 0x401, np2T3 0x401, np2T4 0x401, np2T5 0x401, np2T6 0x401] =
      [0x401, 0x400, 0x600, 0x780, 0x7F8, 0x7FF, 0x7FF] := by decide

/-- 95_test_vectors.md section 2.2, the row of `0x12345678`. -/
theorem test_log2_trace :
    [log2S4 0x12345678, log2V1 0x12345678, log2S3 0x12345678, log2V2 0x12345678, log2S2 0x12345678,
      log2V3 0x12345678, log2S1 0x12345678, log2V4 0x12345678, log2R4 0x12345678] =
      [16, 0x1234, 8, 0x12, 4, 1, 0, 1, 28] := by decide

/- Operand reduction, views, written form. -/

/-- 95_test_vectors.md section 3.4: a negative source value and one above 2^32. -/
theorem test_reduction :
    reducedCommand selLog2 (-5) = 0x1FFFFFFFB ∧ reducedCommand selNextpow2 10737418240 = 0x080000000 := by decide

/-- 95_test_vectors.md section 3.5. -/
theorem test_views : lzc 0x12345678 = some 3 ∧ bitlen 0x12345678 = some 29 ∧ lzc 0 = none := by decide

/-- A line of program P3, the comment right after the literal (95_test_vectors.md section 4, P3). -/
theorem test_parseLine_literal :
    parseLine ['r', '2', ' ', '=', ' ', 'n', 'e', 'x', 't', 'P', 'o', 'w', '2', ' ', '-', '8', ';', ' ', 'a'] =
      .ok (some ⟨['r', '2'], .nextpow2, .literal (-8)⟩) := by rfl

/-- The source's own spelling is read, and a text that is no mnemonic is not (30_encoding.md R36). -/
theorem test_mnemonicOf :
    mnemonicOf ['l', 'o', 'g', '2', 'A', 'p', 'p', 'r', 'o', 'x'] = some .log2approx ∧
      mnemonicOf ['L', 'Z', 'C'] = none := by decide

/-- A hexadecimal literal and a name as operands (95_test_vectors.md section 4, P2). -/
theorem test_sourceOf :
    sourceOf ['0', 'x', '1', 'F'] = some (.literal 31) ∧ sourceOf ['r', '0'] = some (.name ['r', '0']) ∧
      sourceOf ['1', 'F'] = none := by decide

/-- The second line of program P1, which reads the name of the first: 1024 gives 10 (95_test_vectors.md section 4). -/
theorem test_runLine_name :
    (match runLine [(['n'], 1024)] State.reset ⟨['k'], .log2, .name ['n']⟩ with
      | .ok r => r.1.head?
      | .error _ => none) = some (['k'], 10) := by decide

/- Witnesses: values that meet the hypotheses of a statement, one for each clause that has hypotheses. -/

/-- O2: the largest right shift, and the largest and the smallest left shift of a bit. -/
theorem witness_ShiftsAreLogicalOrIsBitwise :
    (31 : Nat) ≤ 31 ∧ (1 : Word).toNat ≤ 1 ∧ (1 : Nat) ≤ 4 ∧ (4 : Nat) ≤ 4 := by decide

/-- O3: both sides of each test, and bit 31. -/
theorem witness_TestsAreUnsigned :
    (0xFFFF : Word).toNat < (0x10000 : Word).toNat ∧ (0xFFFF : Word).toNat ≤ (0xFFFF : Word).toNat ∧
      (0 : Word).toNat = 0 ∧ (1 : Word).toNat ≠ 0 ∧ (0x80000000 : Word).getLsbD 31 = true := by decide

/-- O4: the two ends of the range. -/
theorem witness_TruncationIsModulo :
    ((0 : Int) ≤ 0 ∧ (0 : Int) ≤ 2 ^ 32 - 1) ∧ ((0 : Int) ≤ 4294967295 ∧ (4294967295 : Int) ≤ 2 ^ 32 - 1) := by decide

/-- O5: one word as the word of a pair. -/
theorem witness_CommandWordIsThePair : commandWord 2 5 = commandWord 2 5 := rfl

/-- O8: the largest select in use and a negative source value. -/
theorem witness_OperandsAreReducedFirst :
    (2 : Select).toNat ≤ 2 ∧
      (presenting [reducedCommand 2 (-1)]).pending = reducedCommand 2 (-1) :: [] := by decide

/-- O9: the first and the last reserved word. -/
theorem witness_ReservedSelectIsRefused :
    0x300000000 ≤ (0x300000000 : CommandWord).toNat ∧ 0x300000000 ≤ (0x3FFFFFFFF : CommandWord).toNat ∧
      (presenting [0x3FFFFFFFF]).pending = 0x3FFFFFFFF :: [] := by decide

/-- O10. -/
theorem witness_DecodeOfEncodeIsIdentity : (Instr.log2approx 0xFFFFFFFF).wellFormed = true := by decide

/-- O11. -/
theorem witness_EncodeOfDecodeIsIdentity : decode 0x2FFFFFFFF = .ok (.log2approx 0xFFFFFFFF) := by rfl

/-- O12: the narrowest table word and the one in whole bytes. -/
theorem witness_TableWordRunsNext : (34 : Nat) ≤ 34 ∧ (34 : Nat) ≤ 40 := by decide

/-- O15: each clause at a boundary of its range. -/
theorem witness_Nextpow2HasItsClosedForm :
    (0 : Word).toNat = 0 ∧ 1 ≤ (1 : Word).toNat ∧ (1 : Word).toNat ≤ 2 ^ 31 ∧
      1 ≤ (0x80000000 : Word).toNat ∧ (0x80000000 : Word).toNat ≤ 2 ^ 31 ∧ 2 ^ 31 < (0x80000001 : Word).toNat ∧
      2 ≤ (2 : Word).toNat ∧ (2 : Word).toNat ≤ 2 ^ 31 ∧ (1 : Word).toNat = 1 := by decide

/-- O17: the smallest and the largest operand that wrap. -/
theorem witness_Nextpow2WrapsAboveTheLastPower :
    2 ^ 31 < (0x80000001 : Word).toNat ∧ 2 ^ 31 < (0xFFFFFFFF : Word).toNat := by decide

/-- O18: the operand 1, whose `t1` is 0, and an operand whose `t1` has its highest set bit at 31. -/
theorem witness_Nextpow2Intermediates :
    (1 ≤ (1 : Word).toNat ∧ (np2T1 1).toNat = 0) ∧
      (1 ≤ (0xFFFFFFFF : Word).toNat ∧ 2 ^ 31 ≤ (np2T1 0xFFFFFFFF).toNat ∧
        (np2T1 0xFFFFFFFF).toNat < 2 ^ (31 + 1)) := by decide

/-- O19: both sides of the boundary 2^31, and 0. -/
theorem witness_Nextpow2PropertiesOnTheirRanges :
    (0 : Word).toNat ≤ 2 ^ 31 ∧ 1 ≤ (0x80000000 : Word).toNat ∧ (0x80000000 : Word).toNat ≤ 2 ^ 31 ∧
      2 ^ 31 < (0x80000001 : Word).toNat := by decide

/-- O22: 0, and the two ends of [1, 2^32 - 1] with the exponent of the second. -/
theorem witness_Log2HasItsClosedForm :
    (0 : Word).toNat = 0 ∧ 1 ≤ (1 : Word).toNat ∧ 1 ≤ (0xFFFFFFFF : Word).toNat ∧
      2 ^ 31 ≤ (0xFFFFFFFF : Word).toNat ∧ (0xFFFFFFFF : Word).toNat < 2 ^ (31 + 1) := by decide

/-- O24: the smallest operand with a highest set bit, and the values after the first stage. -/
theorem witness_Log2IntermediateRanges :
    1 ≤ (1 : Word).toNat ∧ (1 : Word) = log2V1 1 ∧ (0 : Word) = log2R1 1 := by decide

/-- LOG2 but for 9 at 1024: one too low there. -/
def lowAt1024 (a : Word) : Word := if a = 1024 then 9 else log2 a

/-- The set that holds 1024 alone. -/
def only1024 (a : Word) : Bool := a == 1024

theorem eq_1024_of_mem {a : Word} (h : approxDivMem only1024 a = true) : a = 1024 :=
  eq_of_beq (Bool.and_eq_true_iff.mp h).2

theorem lowAt1024_offDiv : HOffDiv lowAt1024 only1024 := by
  intro a _ h
  by_cases g : a = 1024
  · subst g
    exact absurd h (by decide)
  · rw [lowAt1024, if_neg g]

/-- O28: a function and a set as the spec ties them, 0, and an operand of the set. -/
theorem witness_ApproxFormIsComplete :
    HOffDiv lowAt1024 only1024 ∧ (0 : Word).toNat = 0 ∧ approxDivMem only1024 1024 = true :=
  ⟨lowAt1024_offDiv, by decide, by decide⟩

/-- O29: a function one too low on a set of one power, and the power. -/
theorem witness_LowByOneGivesRange :
    HOffDiv lowAt1024 only1024 ∧ HLowByOne lowAt1024 only1024 ∧ HPow2Only only1024 ∧
      approxDivMem only1024 1024 = true := by
  refine ⟨lowAt1024_offDiv, fun a h => ?_, fun a h => ?_, by decide⟩
  · rw [eq_1024_of_mem h]
    decide
  · rw [eq_1024_of_mem h]
    exact ⟨10, by decide, by decide, by decide⟩

/-- O30 and O31: two operands in order, the second at the last power. -/
theorem witness_Log2IsMonotone : (3 : Word).toNat ≤ (0x80000000 : Word).toNat := by decide

/-- O31. -/
theorem witness_Nextpow2IsMonotoneBelowTheWrap :
    (3 : Word).toNat ≤ (0x80000000 : Word).toNat ∧ (0x80000000 : Word).toNat ≤ 2 ^ 31 := by decide

/-- O33: a power, no power, 0, and an operand above 2^31. -/
theorem witness_Log2OfNextpow2 :
    (1 ≤ (4 : Word).toNat ∧ (4 : Word).toNat ≤ 2 ^ 31 ∧ ∃ j, (4 : Word).toNat = 2 ^ j) ∧
      (1 ≤ (3 : Word).toNat ∧ (3 : Word).toNat ≤ 2 ^ 31 ∧ ¬ ∃ j, (3 : Word).toNat = 2 ^ j) ∧
      (0 : Word).toNat = 0 ∧ 2 ^ 31 < (0x80000001 : Word).toNat := by
  refine ⟨⟨by decide, by decide, 2, by decide⟩, ⟨by decide, by decide, ?_⟩, by decide, by decide⟩
  rintro ⟨j, hj⟩
  match j, hj with
  | 0, hj => exact absurd hj (by decide)
  | 1, hj => exact absurd hj (by decide)
  | k + 2, hj =>
    have h : 1 ≤ 2 ^ k := Nat.one_le_two_pow
    have hj' : 3 = 2 ^ (k + 2) := hj
    rw [Nat.pow_add] at hj'
    omega

/-- O34: the two ends of the range. -/
theorem witness_BracketingByPowers :
    (1 ≤ (1 : Word).toNat ∧ (1 : Word).toNat ≤ 2 ^ 31) ∧
      (1 ≤ (0x80000000 : Word).toNat ∧ (0x80000000 : Word).toNat ≤ 2 ^ 31) := by decide

/-- O36. -/
theorem witness_LeadingZeroCountView : 1 ≤ (1 : Word).toNat ∧ 1 ≤ (0xFFFFFFFF : Word).toNat := by decide

/-- O37. -/
theorem witness_BitLengthView :
    1 ≤ (1 : Word).toNat ∧ 2 ≤ (2 : Word).toNat ∧ (2 : Word).toNat ≤ 2 ^ 31 ∧
      2 ≤ (0x80000000 : Word).toNat ∧ (0x80000000 : Word).toNat ≤ 2 ^ 31 := by decide

/-- O39: LOG2 5 to be presented. -/
theorem witness_StepRunsTheDecodedOperation :
    (presenting [0x100000005]).pending = 0x100000005 :: [] ∧ decode 0x100000005 = .ok (.log2 5) := ⟨rfl, rfl⟩

/-- O43. -/
theorem witness_FirstEvaluationEqualsALaterOne : opField 0x2FFFFFFFF ≠ 3 := by decide

/-- O44: a state in which LOG2 1024 was evaluated and LOG2 1023 is to come; its ports agree and it steps. -/
theorem witness_StepKeepsPortsInAgreement :
    PortsAgree ((presenting [0x1000003FF]).evaluate selLog2 1024 10) ∧
      step ((presenting [0x1000003FF]).evaluate selLog2 1024 10) =
        .next (((presenting []).evaluate selLog2 1024 10).evaluate selLog2 1023 9) :=
  ⟨.inr ⟨selLog2, 1024, 10, rfl, rfl, rfl, rfl, rfl⟩, rfl⟩

/-- O45: a host that obeys with no word left, and one with a word left. -/
theorem witness_ObeyingHostsRunToTheEnd :
    HostObeys (presenting []) ∧ HostObeys (presenting [0x2FFFFFFFF]) := by
  refine ⟨fun w h => absurd h List.not_mem_nil, fun w h => ?_⟩
  rw [List.mem_singleton.mp h]
  decide

/-- O47: the first words of program P6, where the second is reserved. -/
theorem witness_RunObservesOneResultForEachWord :
    (∀ v ∈ [(0x000000005 : CommandWord)], opField v ≠ 3) ∧ opField 0x300000005 = 3 ∧
      (presenting [0x000000005, 0x300000005]).pending = [0x000000005] ++ 0x300000005 :: [] ∧
      [(0x000000005 : CommandWord)].length < 2 := by
  refine ⟨fun v hv => ?_, by decide, rfl, by decide⟩
  rw [List.mem_singleton.mp hv]
  decide

/-- O48: three instances, two requests to two of them; the last request of instance 1, and instance 2 with none. -/
theorem witness_InstancesShareNothing :
    (∀ q ∈ [((1 : Nat), (0x000000005 : CommandWord)), (0, 0x100000005)],
      q.1 < [State.reset, State.reset, State.reset].length ∧ opField q.2 ≠ 3) ∧
    [State.reset, State.reset, State.reset][2]? = some State.reset ∧
    (∀ q ∈ [((1 : Nat), (0x000000005 : CommandWord)), (0, 0x100000005)], q.1 ≠ 2) ∧
    ([((1 : Nat), (0x000000005 : CommandWord)), (0, 0x100000005)].filter fun q => q.1 = 1).getLast? =
      some (1, 0x000000005) := by
  refine ⟨fun q hq => ?_, rfl, fun q hq => ?_, rfl⟩
  · rcases List.mem_cons.mp hq with rfl | hq
    · exact ⟨(by decide : 1 < 3), by decide⟩
    · rw [List.mem_singleton.mp hq]
      exact ⟨(by decide : 0 < 3), by decide⟩
  · rcases List.mem_cons.mp hq with rfl | hq
    · exact (by decide : (1 : Nat) ≠ 2)
    · rw [List.mem_singleton.mp hq]
      exact (by decide : (0 : Nat) ≠ 2)

/-- O49: one pipeline register and two words, and no register. -/
theorem witness_PipelineDelaysEveryResultAlike :
    0 + [(none : Option Word)].length < [(0 : CommandWord), 1].length ∧
      ([] : List (Option Word)).length = Config.latency := by decide

/-- O51: a literal, and a name given before. -/
theorem witness_LineNamesItsResult :
    sourceValue [] (.literal (-1)) = some (-1) ∧ sourceValue [(['n'], 1024)] (.name ['n']) = some 1024 := by decide

/-- O52: the two lines of program P1. -/
theorem witness_WellFormedLinesRunToTheEnd :
    linesWellFormed (([] : List (Name × Word)).map Prod.fst)
      [⟨['n'], .nextpow2, .literal 1000⟩, ⟨['k'], .log2, .name ['n']⟩] = true := by decide

end Sys2Proof.Tests
end

namespace Sys2Proof.Machine

/-! PROOFS. The primitives of the pseudocode and the operand reduction (spec/00_scope.md R4, R7, R8). -/

/-- R4 on the value of the word: the carry out is lost. -/
theorem add32_toNat (x y : Word) : (add32 x y).toNat = (x.toNat + y.toNat) % 2 ^ 32 :=
  BitVec.toNat_add x y

/-- R4 over the integers, where the difference may be negative: a borrow adds `2^32`. -/
theorem sub32_toNat (x y : Word) :
    ((sub32 x y).toNat : Int) = ((x.toNat : Int) - (y.toNat : Int)) % 2 ^ 32 := by
  have hx : x.toNat < 2 ^ 32 := x.isLt
  have hy : y.toNat < 2 ^ 32 := y.isLt
  rw [sub32, BitVec.toNat_sub]
  omega

theorem gtu_of_lt {x y : Word} (h : y.toNat < x.toNat) : gtu x y = 1 := if_pos h

theorem gtu_of_le {x y : Word} (h : x.toNat ≤ y.toNat) : gtu x y = 0 := if_neg (Nat.not_lt.mpr h)

@[simp] theorem eqz_zero : eqz 0 = 1 := rfl

theorem eqz_of_ne_zero {x : Word} (h : x ≠ 0) : eqz x = 0 := if_neg h

/-- R8: the remainder is never negative and below `2^32`, so the word holds all of it. -/
theorem trunc32_toNat (x : Int) : ((trunc32 x).toNat : Int) = x % 2 ^ 32 := by
  rw [trunc32, BitVec.toNat_ofNat]
  omega

/-- R8's second reading: the low 32 bits of the two's-complement pattern. -/
theorem trunc32_eq_ofInt (x : Int) : trunc32 x = BitVec.ofInt 32 x := by
  apply BitVec.eq_of_toNat_eq
  have h := trunc32_toNat x
  rw [BitVec.toNat_ofInt]
  omega

/-- Settles O1: the two laws are those of the words' values, and the borrow of 0 - 1 is evaluated. -/
theorem addAndSubAreModulo : Obligations.AddAndSubAreModulo :=
  fun x y => ⟨add32_toNat x y, sub32_toNat x y, rfl⟩

/-- Settles O3: each side of each test by its own lemma; bit 31 weighs more than 0xFFFF. -/
theorem testsAreUnsigned : Obligations.TestsAreUnsigned := by
  refine ⟨fun x y => ⟨gtu_of_lt, gtu_of_le⟩, fun x => ⟨fun h => ?_, fun h => ?_⟩, fun x h => ?_⟩
  · rw [BitVec.eq_of_toNat_eq (y := 0) h, eqz_zero]
  · exact eqz_of_ne_zero fun hx => h (congrArg BitVec.toNat hx)
  · have hx : 2 ^ 31 ≤ x.toNat := Nat.ge_two_pow_of_testBit h
    exact gtu_of_lt (Nat.lt_of_lt_of_le (by decide) hx)

/-- Settles O4: on [0, 2^32 - 1] the remainder is the integer itself. -/
theorem truncationIsModulo : Obligations.TruncationIsModulo := by
  refine ⟨trunc32_toNat, trunc32_eq_ofInt, fun x h0 h1 => ?_⟩
  rw [trunc32_toNat]
  exact Int.emod_eq_of_lt h0 (Int.lt_of_le_sub_one h1)

end Sys2Proof.Machine

namespace Sys2Proof.Machine

/-! PROOFS. The command word, its decoder and the reserved select (spec/30_encoding.md R30 to R35). -/

/-- R30: the word as a number. -/
theorem commandWord_toNat (op : Select) (a : Word) :
    (commandWord op a).toNat = op.toNat * 2 ^ 32 + a.toNat := by
  rw [commandWord, BitVec.toNat_append, ← Nat.shiftLeft_add_eq_or_of_lt a.isLt, Nat.shiftLeft_eq]

/-- R30: bits [33:32] are the quotient by `2^32`. -/
theorem opField_toNat (w : CommandWord) : (opField w).toNat = w.toNat / 2 ^ 32 := by
  have hw : w.toNat < 2 ^ 34 := w.isLt
  rw [opField, BitVec.extractLsb'_toNat, Nat.shiftRight_eq_div_pow]
  omega

/-- R30: bits [31:0] are the remainder modulo `2^32`. -/
theorem aField_toNat (w : CommandWord) : (aField w).toNat = w.toNat % 2 ^ 32 := by
  rw [aField, BitVec.extractLsb'_toNat, Nat.shiftRight_zero]

/-- Every word is the word of its two fields: quotient and remainder make the number again. -/
@[simp] theorem commandWord_fields (w : CommandWord) : commandWord (opField w) (aField w) = w := by
  apply BitVec.eq_of_toNat_eq
  rw [commandWord_toNat, opField_toNat, aField_toNat]
  exact Nat.div_add_mod' _ _

/-- Two pairs with one word are one pair, since the fields give the pair back. -/
theorem commandWord_inj {op op' : Select} {a a' : Word} :
    commandWord op a = commandWord op' a' ↔ op = op' ∧ a = a' := by
  refine ⟨fun h => ⟨?_, ?_⟩, fun ⟨ho, ha⟩ => by rw [ho, ha]⟩
  · simpa using congrArg opField h
  · simpa using congrArg aField h

/-- The AND of two words is taken field by field. -/
theorem commandWord_and (op op' : Select) (a a' : Word) :
    commandWord op a &&& commandWord op' a' = commandWord (op &&& op') (a &&& a') :=
  BitVec.and_append

/-- R31: under the mask the select stays and the operand field is cleared. -/
theorem and_mask (w : CommandWord) : w &&& 0x300000000 = commandWord (opField w) 0 := by
  calc w &&& 0x300000000
      = commandWord (opField w) (aField w) &&& commandWord 3 0 := by rw [commandWord_fields]; rfl
    _ = commandWord (opField w &&& 3) (aField w &&& 0) := commandWord_and _ _ _ _
    _ = commandWord (opField w) 0 := congrArg₂ commandWord BitVec.and_allOnes BitVec.and_zero

/-- R31: the match of a select is its word with operand 0, and the masked bits equal it exactly at that select. -/
theorem and_mask_eq_iff (w : CommandWord) (sel : Select) :
    w &&& 0x300000000 = commandWord sel 0 ↔ opField w = sel := by
  rw [and_mask, commandWord_inj, and_iff_left rfl]

/-- Decoding the word of an operation gives the operation back: its select is tested and its operand field read. -/
@[simp] theorem decode_encode (i : Instr) : decode (encode i) = .ok i := by
  rw [decode, encode, opField_commandWord, aField_commandWord]
  cases i with
  | nextpow2 a => rfl
  | log2 a => rfl
  | log2approx a => rfl

/-- Everything the decoder can accept: a word decodes to an operation exactly when its fields are the operation's select
and operand. -/
theorem decode_eq_ok_iff (w : CommandWord) (i : Instr) :
    decode w = .ok i ↔ opField w = i.select ∧ aField w = i.operand := by
  constructor
  · intro h
    by_cases hw : opField w = 3
    · rw [decode_error w hw] at h
      cases h
    · obtain ⟨j, hd, hs, ho⟩ := decode_ok w hw
      cases hd.symm.trans h
      exact ⟨hs.symm, ho.symm⟩
  · rintro ⟨hs, ho⟩
    rw [← commandWord_fields w, hs, ho]
    exact decode_encode i

/-- Everything the decoder can refuse: the words with the select 3. -/
theorem decode_eq_error_iff (w : CommandWord) : decode w = .error .reservedSelect ↔ opField w = 3 := by
  refine ⟨fun h => ?_, decode_error w⟩
  by_contra hw
  obtain ⟨i, hd, -⟩ := decode_ok w hw
  rw [hd] at h
  cases h

/-- R35: the select is 3 exactly from the word `0x300000000` on. -/
theorem opField_eq_three_iff (w : CommandWord) : opField w = 3 ↔ 0x300000000 ≤ w.toNat := by
  have hw : w.toNat < 2 ^ 34 := w.isLt
  rw [← BitVec.toNat_inj, opField_toNat, show (3 : Select).toNat = 3 from rfl]
  omega

/-- R35: the step with a reserved word presented next is refused by name. -/
theorem step_reserved {s : State} {w : CommandWord} {rest : List CommandWord} (h : s.pending = w :: rest)
    (hw : opField w = 3) : step s = .refused (.undecoded .reservedSelect) := by
  rw [step_pending h, decode_error w hw]

/-- Settles O5: the number form, the fields as quotient and remainder, and the pair they give back. -/
theorem commandWordIsThePair : Obligations.CommandWordIsThePair :=
  ⟨commandWord_toNat, fun w => ⟨opField_toNat w, aField_toNat w⟩, commandWord_fields,
    fun _ _ _ _ => commandWord_inj.mp⟩

/-- Settles O6: each match says which select the word holds, and so does each verdict of the decoder. -/
theorem maskAndMatchSelectTheOperation : Obligations.MaskAndMatchSelectTheOperation := by
  intro w
  have verdict (i : Instr) (sel : Select) (hs : i.select = sel) (ho : i.operand = aField w) :
      w &&& 0x300000000 = commandWord sel 0 ↔ decode w = .ok i := by
    rw [and_mask_eq_iff, decode_eq_ok_iff, hs, and_iff_left ho.symm]
  refine ⟨verdict (.nextpow2 (aField w)) selNextpow2 rfl rfl, verdict (.log2 (aField w)) selLog2 rfl rfl,
    verdict (.log2approx (aField w)) selLog2approx rfl rfl,
    (and_mask_eq_iff w 3).trans (decode_eq_error_iff w).symm, ?_⟩
  exact (select_cases (opField w)).imp (and_mask_eq_iff w _).mpr
    (Or.imp (and_mask_eq_iff w _).mpr (Or.imp (and_mask_eq_iff w _).mpr (and_mask_eq_iff w _).mpr))

/-- Settles O7: at each of the three codes the word is the one of its operation, and the fourth select is reserved. -/
theorem decodingIsBySelectAlone : Obligations.DecodingIsBySelectAlone := by
  intro op a
  rcases select_cases op with rfl | rfl | rfl | rfl
  · exact decode_encode (.nextpow2 a)
  · exact decode_encode (.log2 a)
  · exact decode_encode (.log2approx a)
  · exact decode_error _ (opField_commandWord 3 a)

/-- Settles O8: the reduced word is not reserved, so the step evaluates it, and its operand field is `trunc32 x`. -/
theorem operandsAreReducedFirst : Obligations.OperandsAreReducedFirst := by
  intro op x s rest hop hp
  have hne : op ≠ 3 := by
    rintro rfl
    exact absurd hop (by decide)
  obtain ⟨y, hy, hstep⟩ := step_evaluates hp (by rwa [reducedCommand, opField_commandWord])
  rw [commandResult] at hy
  rw [reducedCommand, opField_commandWord, aField_commandWord, trunc32_eq_ofInt] at hy hstep
  exact ⟨_, y, hstep, rfl, rfl, hy, rfl⟩

/-- Settles O9: a word from 0x300000000 on holds the select 3, which is none of the three codes. -/
theorem reservedSelectIsRefused : Obligations.ReservedSelectIsRefused :=
  ⟨fun w _ _ hw hp => step_reserved hp ((opField_eq_three_iff w).mpr hw), fun _ => rfl⟩

end Sys2Proof.Machine

namespace Sys2Proof.Machine

/-! PROOFS. LOG2 is the binary logarithm: each stage adds its weight to the result and divides the value by
`2^weight`, or does neither (spec/41_log2.md R50, R51). -/

/-- The OR of a multiple of `2^k` and a word below `2^k` is their sum. -/
theorem or32_toNat_of_dvd {r s : Word} {k : Nat} (hr : 2 ^ k ∣ r.toNat) (hs : s.toNat < 2 ^ k) :
    (or32 r s).toNat = r.toNat + s.toNat := by
  obtain ⟨q, hq⟩ := hr
  rw [or32, BitVec.toNat_or, hq, Nat.two_pow_add_eq_or_of_lt hs]

/-- What holds of `a` when the stages of weight `2^k` and above are done, `r` being the result so far and `v` the value:
`v` has at most `2^k` bits, `r` is a sum of weights of stages done, and the logarithm of `v` is what `r` lacks. -/
def Log2Stage (a r v : Word) (k : Nat) : Prop :=
  v.toNat < 2 ^ 2 ^ k ∧ 2 ^ k ∣ r.toNat ∧ Nat.log 2 a.toNat = r.toNat + Nat.log 2 v.toNat

/-- The stage of weight `2^k`, on the threshold `2^(2^k) - 1`, keeps the invariant. -/
theorem Log2Stage.next {a r v t : Word} {k : Nat} (hk : k ≤ 4) (ht : t.toNat = 2 ^ 2 ^ k - 1)
    (H : Log2Stage a r v (k + 1)) :
    Log2Stage a (or32 r (stageShift v t k)) (shr32 v (stageShift v t k).toNat) k := by
  obtain ⟨hv, hr, hlog⟩ := H
  have hdvd : 2 ^ k ∣ r.toNat := (pow_dvd_pow 2 (Nat.le_succ k)).trans hr
  rcases stage_cases v t k hk with ⟨hlt, hs, hv'⟩ | ⟨hle, hs, hv'⟩
  · have hor := or32_toNat_of_dvd hr (hs.trans_lt (Nat.pow_lt_pow_succ Nat.one_lt_two))
    have hw : 2 ^ k ≤ Nat.log 2 v.toNat := Nat.le_log_of_pow_le Nat.one_lt_two (by omega)
    have hsplit : 2 ^ 2 ^ (k + 1) = 2 ^ 2 ^ k * 2 ^ 2 ^ k := by rw [← Nat.pow_add, ← Nat.two_mul, Nat.pow_succ']
    rw [Log2Stage, hor, hv', hs, Nat.log_div_base_pow]
    exact ⟨Nat.div_lt_of_lt_mul (hsplit ▸ hv), hdvd.add (dvd_refl _), by omega⟩
  · have hor := or32_toNat_of_dvd hr (hs.trans_lt (Nat.two_pow_pos _))
    have hpos : 0 < 2 ^ 2 ^ k := Nat.two_pow_pos _
    rw [Log2Stage, hor, hv', hs, Nat.add_zero]
    exact ⟨by omega, hdvd, hlog⟩

/-- The stages of weight 16 to 2 leave a value of at most two bits, whose logarithm is what the result lacks. -/
theorem log2Stage_after_four (a : Word) : Log2Stage a (log2R4 a) (log2V4 a) 1 := by
  have h5 : Log2Stage a 0 a 5 := ⟨a.isLt, dvd_zero _, (Nat.zero_add _).symm⟩
  have h4 : Log2Stage a (log2R1 a) (log2V1 a) 4 := by
    rw [← BitVec.zero_or (x := log2R1 a)]
    exact h5.next (by decide) rfl
  have h3 : Log2Stage a (log2R2 a) (log2V2 a) 3 := h4.next (by decide) rfl
  have h2 : Log2Stage a (log2R3 a) (log2V3 a) 2 := h3.next (by decide) rfl
  exact h2.next (by decide) rfl

/-- R51: LOG2 is the index of the highest set bit, and 0 at operand 0. -/
theorem log2_toNat (a : Word) : (log2 a).toNat = Nat.log 2 a.toNat := by
  obtain ⟨hv, hr, hlog⟩ := log2Stage_after_four a
  have hbit : (shr32 (log2V4 a) 1).toNat = (log2V4 a).toNat / 2 := by
    rw [shr32, BitVec.toNat_ushiftRight, Nat.shiftRight_eq_div_pow, Nat.pow_one]
  have hhalf : Nat.log 2 (log2V4 a).toNat = (log2V4 a).toNat / 2 := by
    generalize (log2V4 a).toNat = v at hv ⊢
    have hv : v < 4 := hv
    interval_cases v <;> decide
  rw [log2, or32_toNat_of_dvd hr (by omega), hbit, hlog, hhalf]

end Sys2Proof.Machine

namespace Sys2Proof.Machine

/-! PROOFS. NEXTPOW2: the propagation steps fill every bit below the highest one of `t1`, so `t6` is
`2^(clog a) - 1`, and everything else follows from that (spec/40_nextpow2.md R40 to R45). -/

@[simp] theorem smear_zero (n : Nat) : smear 0#32 n = 0#32 := by simp [smear, or32, shr32]

/-- A word of ones stays so: there is no bit left to set. -/
theorem smear_allOnes (n : Nat) : smear 0xFFFFFFFF n = 0xFFFFFFFF := by
  rw [smear, or32, show (0xFFFFFFFF : Word) = BitVec.allOnes 32 from rfl, BitVec.allOnes_or]

/-- A word is `2^(h+1) - 1` when the run of set bits from `h` downward reaches bit 0. -/
theorem TopBitsSet.toNat_eq {x : Word} {h n : Nat} (H : TopBitsSet x h n) (hn : h < n) :
    x.toNat = 2 ^ (h + 1) - 1 := by
  obtain ⟨hlt, hset⟩ := H
  apply Nat.eq_of_testBit_eq
  intro i
  rw [Nat.testBit_two_pow_sub_one]
  by_cases hi : i ≤ h
  · rw [decide_eq_true (Nat.lt_succ_of_le hi)]
    exact hset i hi (by omega)
  · rw [decide_eq_false (by omega)]
    exact Nat.testBit_lt_two_pow (hlt.trans_le (Nat.pow_le_pow_right Nat.two_pos (by omega)))

/-- A word with its highest set bit at `h` has a run of one bit. -/
theorem topBitsSet_one {x : Word} {h : Nat} (hl : 2 ^ h ≤ x.toNat) (hu : x.toNat < 2 ^ (h + 1)) :
    TopBitsSet x h 1 := by
  refine ⟨hu, fun i hi hn => ?_⟩
  obtain rfl : i = h := by omega
  exact Nat.testBit_of_two_pow_le_and_two_pow_add_one_gt hl hu

/-- R40, R42: the operand, or 1 when it is 0. -/
theorem np2T0_toNat (a : Word) : (np2T0 a).toNat = max a.toNat 1 := by
  by_cases h : a = 0
  · rw [h]; rfl
  · have h0 : a.toNat ≠ 0 := fun h' => h (BitVec.eq_of_toNat_eq h')
    have hz : np2T0 a = a := by rw [np2T0, np2Z, eqz_of_ne_zero h]; exact BitVec.add_zero a
    rw [hz]
    omega

/-- The decrement does not borrow, since `t0` is at least 1. -/
theorem np2T1_toNat (a : Word) : (np2T1 a).toNat = a.toNat - 1 := by
  have h := sub32_toNat (np2T0 a) 1
  rw [np2T0_toNat, show (1 : Word).toNat = 1 from rfl] at h
  have ha : a.toNat < 2 ^ 32 := a.isLt
  rw [np2T1]
  omega

/-- R44: with no bit set in `t1`, none is set later. -/
theorem np2_zero {a : Word} (h : np2T1 a = 0) :
    np2T2 a = 0 ∧ np2T3 a = 0 ∧ np2T4 a = 0 ∧ np2T5 a = 0 ∧ np2T6 a = 0 := by
  simp [np2T2, np2T3, np2T4, np2T5, np2T6, h]

/-- R44: the run of set bits from the highest one of `t1` doubles with each step. -/
theorem np2_topBitsSet {a : Word} {h : Nat} (hl : 2 ^ h ≤ (np2T1 a).toNat)
    (hu : (np2T1 a).toNat < 2 ^ (h + 1)) :
    TopBitsSet (np2T2 a) h 2 ∧ TopBitsSet (np2T3 a) h 4 ∧ TopBitsSet (np2T4 a) h 8 ∧
      TopBitsSet (np2T5 a) h 16 ∧ TopBitsSet (np2T6 a) h 32 := by
  have h2 : TopBitsSet (np2T2 a) h 2 := smear_topBitsSet (topBitsSet_one hl hu)
  have h3 : TopBitsSet (np2T3 a) h 4 := smear_topBitsSet h2
  have h4 : TopBitsSet (np2T4 a) h 8 := smear_topBitsSet h3
  have h5 : TopBitsSet (np2T5 a) h 16 := smear_topBitsSet h4
  exact ⟨h2, h3, h4, h5, smear_topBitsSet h5⟩

/-- R44: the five shifts add up to 31, so the run reaches bit 0 from any bit of the word. -/
theorem np2T6_toNat_of_highBit {a : Word} {h : Nat} (hl : 2 ^ h ≤ (np2T1 a).toNat)
    (hu : (np2T1 a).toNat < 2 ^ (h + 1)) : (np2T6 a).toNat = 2 ^ (h + 1) - 1 := by
  obtain ⟨-, -, -, -, h6⟩ := np2_topBitsSet hl hu
  exact h6.toNat_eq ((Nat.pow_lt_pow_iff_right Nat.one_lt_two).mp (hl.trans_lt (np2T1 a).isLt))

/-- The exponent of the least power of two not below `n` is one above the index of the highest set bit of `n - 1`. -/
theorem clog_two_eq_log_pred {n : Nat} (hn : 2 ≤ n) : Nat.clog 2 n = Nat.log 2 (n - 1) + 1 := by
  refine eq_of_forall_ge_iff fun z => ?_
  rw [Nat.clog_le_iff_le_pow Nat.one_lt_two, Nat.succ_le_iff, Nat.log_lt_iff_lt_pow Nat.one_lt_two (by omega)]
  omega

/-- `t6` for every operand, 0 and 1 included: all the bits below the least power of two not below the operand. -/
theorem np2T6_toNat (a : Word) : (np2T6 a).toNat = 2 ^ Nat.clog 2 a.toNat - 1 := by
  have h1 := np2T1_toNat a
  rcases Nat.lt_or_ge a.toNat 2 with ha | ha
  · have h0 : (np2T1 a).toNat = 0 := by omega
    obtain ⟨-, -, -, -, h6⟩ := np2_zero (BitVec.eq_of_toNat_eq h0)
    rw [h6, Nat.clog_of_right_le_one (by omega)]
    rfl
  · rw [clog_two_eq_log_pred ha, ← h1]
    exact np2T6_toNat_of_highBit (Nat.pow_log_le_self 2 (by omega)) (Nat.lt_pow_succ_log_self Nat.one_lt_two _)

/-- The final add, which may wrap. -/
theorem nextpow2_toNat (a : Word) : (nextpow2 a).toNat = 2 ^ Nat.clog 2 a.toNat % 2 ^ 32 := by
  rw [nextpow2, add32_toNat, np2T6_toNat]
  exact congrArg (· % 2 ^ 32) (Nat.sub_add_cancel Nat.one_le_two_pow)

/-- R41: up to `2^31` the final add does not wrap. -/
theorem nextpow2_toNat_of_le {a : Word} (ha : a.toNat ≤ 2 ^ 31) :
    (nextpow2 a).toNat = 2 ^ Nat.clog 2 a.toNat := by
  rw [nextpow2_toNat]
  apply Nat.mod_eq_of_lt
  exact Nat.pow_lt_pow_right Nat.one_lt_two (Nat.lt_succ_of_le (Nat.clog_le_of_le_pow ha))

/-- R43: above `2^31` every bit of `t6` is set. -/
theorem np2T6_of_gt {a : Word} (ha : 2 ^ 31 < a.toNat) : np2T6 a = 0xFFFFFFFF := by
  apply BitVec.eq_of_toNat_eq
  rw [np2T6_toNat, Nat.le_antisymm (Nat.clog_le_of_le_pow a.isLt.le) ((Nat.lt_clog_iff_pow_lt Nat.one_lt_two).mpr ha)]
  rfl

/-- R43: the final add wraps. -/
theorem nextpow2_of_gt {a : Word} (ha : 2 ^ 31 < a.toNat) : nextpow2 a = 0 := by
  rw [nextpow2, np2T6_of_gt ha]
  rfl

theorem nextpow2_zero : nextpow2 0 = 1 :=
  BitVec.eq_of_toNat_eq (nextpow2_toNat_of_le (Nat.zero_le _))

/-- R45: a power of two is its own result. -/
theorem nextpow2_of_toNat_eq_two_pow {a : Word} {k : Nat} (h : a.toNat = 2 ^ k) : nextpow2 a = a := by
  apply BitVec.eq_of_toNat_eq
  rw [nextpow2_toNat, h, Nat.clog_pow 2 k Nat.one_lt_two, ← h]
  exact Nat.mod_eq_of_lt a.isLt

/-- Everything NEXTPOW2 does to the state: the ports and the observation. -/
theorem exec_nextpow2 (a : Word) (s : State) :
    exec (.nextpow2 a) s =
      .next { s with op := some 0, a := some a, y := some (nextpow2 a), observed := s.observed ++ [nextpow2 a] } :=
  rfl

/-- Settles O15: the five clauses are the exponent's bounds on the range of each, and its value from the bit index. -/
theorem nextpow2HasItsClosedForm : Obligations.Nextpow2HasItsClosedForm := by
  intro a s
  refine ⟨nextpow2 a, exec_nextpow2 a s, fun h0 => ?_, fun _ hle => ?_, fun hgt => ?_,
    fun h2 hle => ?_, fun h1 => ?_⟩
  · rw [nextpow2_toNat_of_le (by omega), h0, Nat.clog_zero_right, Nat.pow_zero]
  · exact ⟨Nat.clog 2 a.toNat, Nat.clog_le_of_le_pow hle, nextpow2_toNat_of_le hle,
      Nat.le_pow_clog Nat.one_lt_two _, fun _ => Nat.clog_le_of_le_pow⟩
  · rw [nextpow2_of_gt hgt]
    rfl
  · have hpred : (a - 1).toNat = a.toNat - 1 :=
      BitVec.toNat_sub_of_le (BitVec.le_def.mpr (Nat.le_of_succ_le h2))
    rw [nextpow2_toNat_of_le hle, clog_two_eq_log_pred h2, log2_toNat, hpred]
  · rw [nextpow2_toNat_of_le (by omega), h1, Nat.clog_one_right, Nat.pow_zero]

/-- Settles O17: `t6` is all ones there, so the final add wraps to 0. -/
theorem nextpow2WrapsAboveTheLastPower : Obligations.Nextpow2WrapsAboveTheLastPower := by
  intro a s ha
  refine ⟨?_, np2T6_of_gt ha, ?_⟩
  · rw [np2T1_toNat]
    omega
  · rw [exec_nextpow2, nextpow2_of_gt ha]

/-- Settles O18: each step's run is the one of `np2_topBitsSet`, and no bit appears where none was. -/
theorem nextpow2Intermediates : Obligations.Nextpow2Intermediates := by
  intro a ha
  refine ⟨by rw [np2T0_toNat, max_eq_left ha], np2T1_toNat a, fun h => np2_zero (BitVec.eq_of_toNat_eq h),
    fun h hl hu => ?_⟩
  obtain ⟨⟨-, h2⟩, ⟨-, h3⟩, ⟨-, h4⟩, ⟨-, h5⟩, ⟨-, h6⟩⟩ := np2_topBitsSet hl hu
  exact ⟨np2T6_toNat_of_highBit hl hu, h2, h3, h4, h5, h6⟩

/-- Settles O19: up to 2^31 the result is `2^clog`, the least power not below the operand; above, it is 0. -/
theorem nextpow2PropertiesOnTheirRanges : Obligations.Nextpow2PropertiesOnTheirRanges := by
  intro a
  refine ⟨fun hle => ?_, fun _ hle k => ?_, fun hgt => ?_⟩
  · have hy := nextpow2_toNat_of_le hle
    exact ⟨⟨_, hy⟩, hy ▸ Nat.le_pow_clog Nat.one_lt_two _, nextpow2_of_toNat_eq_two_pow hy⟩
  · rintro ⟨hk, hlt⟩
    rw [nextpow2_toNat_of_le hle] at hlt
    exact hlt.not_ge (Nat.pow_le_pow_right Nat.two_pos (Nat.clog_le_of_le_pow hk))
  · rw [nextpow2_of_gt hgt]
    refine ⟨?_, Nat.zero_lt_of_lt hgt, rfl, nextpow2_zero⟩
    rintro ⟨k, hk⟩
    exact (Nat.two_pow_pos k).ne hk

/-- Settles O14: the lines are those of the model, the zero test read on the operand's number. -/
theorem nextpow2FollowsThePseudocode : Obligations.Nextpow2FollowsThePseudocode := by
  intro a s
  have hz : np2Z a = if a.toNat = 0 then 1 else 0 := if_congr (BitVec.toNat_eq (y := 0)) rfl rfl
  rw [← hz]
  exact exec_nextpow2 a s

/-- Settles O16: without the first two lines, the borrow of 0 - 1 sets every bit and the final add wraps. -/
theorem nextpow2OfZeroIsOne : Obligations.Nextpow2OfZeroIsOne := by
  have hborrow : sub32 0 1 = 0xFFFFFFFF := rfl
  refine ⟨fun s => ?_, hborrow, ?_, ?_⟩
  · rw [exec_nextpow2, nextpow2_zero]
  · simp only [hborrow, smear_allOnes]
  · simp only [hborrow, smear_allOnes]
    rfl

end Sys2Proof.Machine

namespace Sys2Proof.Machine

/-! PROOFS. The stages of LOG2 one by one: where each leaves the highest set bit, and which bit of the result it decides
(spec/41_log2.md R50 to R53). -/

/-- Everything LOG2 does to the state: the ports and the observation. -/
theorem exec_log2 (a : Word) (s : State) :
    exec (.log2 a) s =
      .next { s with op := some 1, a := some a, y := some (log2 a), observed := s.observed ++ [log2 a] } :=
  rfl

theorem log2_zero : log2 0 = 0 :=
  BitVec.eq_of_toNat_eq ((log2_toNat 0).trans (Nat.log_zero_right 2))

/-- R51: a word has no bit above bit 31. -/
theorem log2_toNat_le (a : Word) : (log2 a).toNat ≤ 31 := by
  rw [log2_toNat]
  exact Nat.le_of_lt_succ (Nat.log_lt_of_lt_pow' (by decide) a.isLt)

/-- R50: the shift amount as a number, in place of the shifted test. -/
theorem stageShift_toNat (v t : Word) (k : Nat) (hk : k ≤ 4) :
    (stageShift v t k).toNat = if t.toNat < v.toNat then 2 ^ k else 0 := by
  rcases stage_cases v t k hk with ⟨hlt, hs, -⟩ | ⟨hle, hs, -⟩
  · rw [hs, if_pos hlt]
  · rw [hs, if_neg hle.not_gt]

theorem log2S4_toNat (a : Word) : (log2S4 a).toNat = if 0xFFFF < a.toNat then 16 else 0 :=
  stageShift_toNat a 0xFFFF 4 (by decide)

theorem log2S3_toNat (a : Word) : (log2S3 a).toNat = if 0xFF < (log2V1 a).toNat then 8 else 0 :=
  stageShift_toNat (log2V1 a) 0xFF 3 (by decide)

theorem log2S2_toNat (a : Word) : (log2S2 a).toNat = if 0xF < (log2V2 a).toNat then 4 else 0 :=
  stageShift_toNat (log2V2 a) 0xF 2 (by decide)

theorem log2S1_toNat (a : Word) : (log2S1 a).toNat = if 0x3 < (log2V3 a).toNat then 2 else 0 :=
  stageShift_toNat (log2V3 a) 0x3 1 (by decide)

/-- A stage shifts only a value above its threshold, so a set bit remains. -/
theorem stage_pos {v t : Word} {k : Nat} (hk : k ≤ 4) (ht : t.toNat = 2 ^ 2 ^ k - 1) (hv : 0 < v.toNat) :
    0 < (shr32 v (stageShift v t k).toNat).toNat := by
  rcases stage_cases v t k hk with ⟨hlt, -, hv'⟩ | ⟨-, -, hv'⟩
  · rw [hv']
    exact Nat.div_pos (by omega) (Nat.two_pow_pos _)
  · rwa [hv']

theorem log2V_pos {a : Word} (ha : 1 ≤ a.toNat) :
    0 < (log2V1 a).toNat ∧ 0 < (log2V2 a).toNat ∧ 0 < (log2V3 a).toNat ∧ 0 < (log2V4 a).toNat := by
  have h1 : 0 < (log2V1 a).toNat := stage_pos (by decide) rfl ha
  have h2 : 0 < (log2V2 a).toNat := stage_pos (by decide) rfl h1
  have h3 : 0 < (log2V3 a).toNat := stage_pos (by decide) rfl h2
  exact ⟨h1, h2, h3, stage_pos (by decide) rfl h3⟩

/-- Before the first stage the value is the operand and nothing is added. -/
theorem log2Stage_start (a : Word) : Log2Stage a 0 a 5 := ⟨a.isLt, dvd_zero _, (Nat.zero_add _).symm⟩

theorem log2Stage_after_one (a : Word) : Log2Stage a (log2R1 a) (log2V1 a) 4 := by
  rw [← BitVec.zero_or (x := log2R1 a)]
  exact (log2Stage_start a).next (by decide) rfl

theorem log2Stage_after_two (a : Word) : Log2Stage a (log2R2 a) (log2V2 a) 3 :=
  (log2Stage_after_one a).next (by decide) rfl

theorem log2Stage_after_three (a : Word) : Log2Stage a (log2R3 a) (log2V3 a) 2 :=
  (log2Stage_after_two a).next (by decide) rfl

/-- What a stage has left to add is the logarithm of its value. -/
theorem Log2Stage.log2_toNat_eq {a r v : Word} {k : Nat} (H : Log2Stage a r v k) :
    (log2 a).toNat = r.toNat + Nat.log 2 v.toNat :=
  have ⟨_, _, hlog⟩ := H
  (log2_toNat a).trans hlog

/-- R53: the value fits the width left; the result so far is a multiple of the last stage's weight, up to 31. -/
theorem Log2Stage.ranges {a r v : Word} {k : Nat} (H : Log2Stage a r v k) :
    v.toNat ≤ 2 ^ 2 ^ k - 1 ∧ 2 ^ k ∣ r.toNat ∧ r.toNat ≤ 31 := by
  have hy := H.log2_toNat_eq
  have hle := log2_toNat_le a
  obtain ⟨hv, hr, -⟩ := H
  exact ⟨Nat.le_sub_one_of_lt hv, hr, by omega⟩

/-- R53: the highest set bit of the value stands at the index that the result so far lacks. -/
theorem Log2Stage.highBit {a r v : Word} {k : Nat} (H : Log2Stage a r v k) (hv : 0 < v.toNat) :
    r.toNat ≤ (log2 a).toNat ∧ 2 ^ ((log2 a).toNat - r.toNat) ≤ v.toNat ∧
      v.toNat < 2 ^ ((log2 a).toNat - r.toNat + 1) := by
  rw [H.log2_toNat_eq, Nat.add_sub_cancel_left]
  exact ⟨Nat.le_add_right _ _, Nat.pow_log_le_self 2 hv.ne', Nat.lt_pow_succ_log_self Nat.one_lt_two _⟩

/-- The highest bit a number below `2^(k+1)` can have tells whether it reaches `2^k`. -/
theorem testBit_of_lt_two_pow_succ {n k : Nat} (h : n < 2 ^ (k + 1)) : n.testBit k = decide (2 ^ k ≤ n) := by
  by_cases hk : 2 ^ k ≤ n
  · rw [decide_eq_true hk, Nat.testBit_of_two_pow_le_and_two_pow_add_one_gt hk h]
  · rw [decide_eq_false hk, Nat.testBit_lt_two_pow (not_le.mp hk)]

/-- R51: bit `k` of the result is the decision of the stage of weight `2^k`: earlier stages add multiples of `2^(k+1)`,
and what is left to add reaches `2^k` exactly when the value has more than `2^k` bits. -/
theorem Log2Stage.getLsbD_log2 {a r v : Word} {k : Nat} (H : Log2Stage a r v (k + 1)) :
    (log2 a).getLsbD k = decide (2 ^ 2 ^ k ≤ v.toNat) := by
  have hy := H.log2_toNat_eq
  obtain ⟨hv, ⟨q, hq⟩, -⟩ := H
  have hlog : Nat.log 2 v.toNat < 2 ^ (k + 1) := Nat.log_lt_of_lt_pow' (Nat.two_pow_pos _).ne' hv
  have hiff : 2 ^ k ≤ Nat.log 2 v.toNat ↔ 2 ^ 2 ^ k ≤ v.toNat := by
    rw [← not_lt, ← not_lt, not_iff_not]
    exact ⟨Nat.lt_pow_of_log_lt Nat.one_lt_two, Nat.log_lt_of_lt_pow' (Nat.two_pow_pos _).ne'⟩
  rw [← BitVec.testBit_toNat, hy, hq, Nat.testBit_two_pow_mul_add q hlog, if_pos (Nat.lt_succ_self k),
    testBit_of_lt_two_pow_succ hlog, decide_eq_decide.mpr hiff]

/-- R50: the shift amounts are distinct powers of two, so their OR is their sum. -/
theorem log2R4_toNat (a : Word) :
    (log2R4 a).toNat = (log2S4 a).toNat + (log2S3 a).toNat + (log2S2 a).toNat + (log2S1 a).toNat := by
  have h3 : (log2S3 a).toNat < 2 ^ 4 := by rw [log2S3_toNat]; split <;> decide
  have h2 : (log2S2 a).toNat < 2 ^ 3 := by rw [log2S2_toNat]; split <;> decide
  have h1 : (log2S1 a).toNat < 2 ^ 2 := by rw [log2S1_toNat]; split <;> decide
  obtain ⟨-, hr1, -⟩ := log2Stage_after_one a
  obtain ⟨-, hr2, -⟩ := log2Stage_after_two a
  obtain ⟨-, hr3, -⟩ := log2Stage_after_three a
  rw [log2R4, or32_toNat_of_dvd hr3 h1, log2R3, or32_toNat_of_dvd hr2 h2, log2R2, or32_toNat_of_dvd hr1 h3, log2R1]

/-- Settles O21: each shift amount is its test's weight, the right shifts are the model's, and the OR of the amounts is
their sum. -/
theorem log2FollowsThePseudocode : Obligations.Log2FollowsThePseudocode := by
  intro a s s4 v1 s3 v2 s2 v3 s1 v4 y
  have hs4 : s4 = (log2S4 a).toNat := (log2S4_toNat a).symm
  have hv1 : v1 = log2V1 a := congrArg (a >>> ·) hs4
  have hs3 : s3 = (log2S3 a).toNat := by rw [log2S3_toNat, ← hv1]
  have hv2 : v2 = log2V2 a := congrArg₂ (· >>> ·) hv1 hs3
  have hs2 : s2 = (log2S2 a).toNat := by rw [log2S2_toNat, ← hv2]
  have hv3 : v3 = log2V3 a := congrArg₂ (· >>> ·) hv2 hs2
  have hs1 : s1 = (log2S1 a).toNat := by rw [log2S1_toNat, ← hv3]
  have hv4 : v4 = log2V4 a := congrArg₂ (· >>> ·) hv3 hs1
  have hr4 : BitVec.ofNat 32 (s4 + s3 + s2 + s1) = log2R4 a := by
    rw [hs4, hs3, hs2, hs1, ← log2R4_toNat, BitVec.ofNat_toNat, BitVec.setWidth_eq]
  have hy : y = log2 a := congrArg₂ or32 hr4 (congrArg (shr32 · 1) hv4)
  rw [hy]
  exact exec_log2 a s

/-- Settles O22: the result is the binary logarithm, and its bits are the decisions of the stages. -/
theorem log2HasItsClosedForm : Obligations.Log2HasItsClosedForm := by
  intro a s
  have hlast : (log2 a).getLsbD 0 = (log2V4 a).getLsbD 1 := by
    obtain ⟨hv, -⟩ := log2Stage_after_four a
    rw [(log2Stage_after_four a).getLsbD_log2, ← BitVec.testBit_toNat, testBit_of_lt_two_pow_succ hv]
    rfl
  refine ⟨log2 a, exec_log2 a s, fun h0 => ?_, fun h1 => ?_, log2_toNat_le a,
    (log2Stage_start a).getLsbD_log2, (log2Stage_after_one a).getLsbD_log2, (log2Stage_after_two a).getLsbD_log2,
    (log2Stage_after_three a).getLsbD_log2, hlast⟩
  · rw [log2_toNat, h0, Nat.log_zero_right]
  · rw [log2_toNat]
    exact ⟨Nat.pow_log_le_self 2 (Nat.ne_of_gt h1), Nat.lt_pow_succ_log_self Nat.one_lt_two _,
      fun k hl hu => (Nat.log_eq_of_pow_le_of_lt_pow hl hu).symm⟩

/-- Settles O24: after each stage the value fits the width left, the result so far is a multiple of the last weight, and
the value's highest set bit is what the result lacks. -/
theorem log2IntermediateRanges : Obligations.Log2IntermediateRanges := by
  intro a
  have H1 := log2Stage_after_one a
  have H2 := log2Stage_after_two a
  have H3 := log2Stage_after_three a
  have H4 := log2Stage_after_four a
  obtain ⟨hv1, hd1, hr1⟩ := H1.ranges
  obtain ⟨hv2, hd2, hr2⟩ := H2.ranges
  obtain ⟨hv3, hd3, hr3⟩ := H3.ranges
  obtain ⟨hv4, hd4, hr4⟩ := H4.ranges
  refine ⟨hv1, hv2, hv3, hv4,
    by omega, by omega, by omega, by omega, log2_toNat_le a, fun ha v r hvr => ?_⟩
  obtain ⟨h1, h2, h3, h4⟩ := log2V_pos ha
  rcases hvr with ⟨rfl, rfl⟩ | ⟨rfl, rfl⟩ | ⟨rfl, rfl⟩ | ⟨rfl, rfl⟩
  · exact H1.highBit h1
  · exact H2.highBit h2
  · exact H3.highBit h3
  · exact H4.highBit h4

/-- Settles O23: 0 exceeds no threshold, so every stage leaves it as it is. -/
theorem log2OfZeroIsZero : Obligations.Log2OfZeroIsZero := by
  refine ⟨by decide, by decide, fun s => ?_⟩
  rw [exec_log2, log2_zero]

end Sys2Proof.Machine

namespace Sys2Proof.Machine

/-! PROOFS. LOG2APPROX is a function of the operand that is LOG2 on every operand from 1 up outside the open set
(spec/42_log2approx.md R60 to R63). -/

/-- Everything LOG2APPROX does to the state: the ports and the observation. -/
theorem exec_log2approx (a : Word) (s : State) :
    exec (.log2approx a) s =
      .next { s with op := some 2, a := some a, y := some (approx a), observed := s.observed ++ [approx a] } :=
  rfl

/-- R63: 0 is no member, whatever set stands in the place of the open one. -/
@[simp] theorem approxDivMem_zero (div : Word → Bool) : approxDivMem div 0 = false := rfl

/-- On every other operand membership is what the set says. -/
theorem approxDivMem_of_ne_zero (div : Word → Bool) {a : Word} (h0 : a ≠ 0) : approxDivMem div a = div a := by
  rw [approxDivMem, bne_iff_ne.mpr h0, Bool.true_and]

/-- R62: off the set the free function is not read, whatever function and set stand in the place of the open ones. -/
theorem approxOf_offDiv (free : Word → Word) (div : Word → Bool) : HOffDiv (approxOf free div) div := by
  intro a ha hmem
  have h0 : a ≠ 0 := by
    rintro rfl
    exact absurd ha (by decide)
  rw [approxDivMem_of_ne_zero div h0] at hmem
  exact if_neg (not_or.mpr ⟨h0, Bool.eq_false_iff.mp hmem⟩)

/-- Settles O27: the operand is 0, or a member of the machine's set, or off the set, where the machine's function is
an instance of `approxOf_offDiv`. -/
theorem log2approxAgreesOffTheSet : Obligations.Log2approxAgreesOffTheSet := by
  refine ⟨fun a s => ⟨approx a, exec_log2approx a s, ?_⟩, approxOf_offDiv, approxDivMem_zero⟩
  rcases Nat.eq_zero_or_pos a.toNat with h0 | hpos
  · exact .inl h0
  · cases hmem : approxDivMem Config.approxDiv a with
    | true => exact .inr (.inl rfl)
    | false => exact .inr (.inr (approxOf_offDiv _ _ a hpos hmem))

/-- Settles O26: the one value is `approx a`, which reads no state. -/
theorem log2approxIsAFunctionOfTheOperand : Obligations.Log2approxIsAFunctionOfTheOperand :=
  fun a => ⟨approx a, exec_log2approx a⟩

end Sys2Proof.Machine

namespace Sys2Proof.Machine

/-! PROOFS. The laws of the two exact operations, from their closed forms: LOG2 is the floor of the binary logarithm and
NEXTPOW2, up to `2^31`, is 2 to its ceiling (spec/43_laws_and_derived_views.md R73 to R78). -/

/-- R73: LOG2 reaches 31 from bit 31 on. -/
theorem log2_toNat_eq_31_iff (a : Word) : (log2 a).toNat = 31 ↔ 2 ^ 31 ≤ a.toNat := by
  rw [log2_toNat]
  refine ⟨fun h => ?_, fun h => Nat.log_eq_of_pow_le_of_lt_pow h a.isLt⟩
  by_contra hlt
  exact absurd h (Nat.log_lt_of_lt_pow' (by decide) (not_le.mp hlt)).ne

/-- R73, R78: LOG2 is 0 at 0 and 1 only. -/
theorem log2_toNat_eq_zero_iff (a : Word) : (log2 a).toNat = 0 ↔ a.toNat ≤ 1 := by
  rw [log2_toNat, Nat.log_eq_zero_iff, or_iff_left (by decide), Nat.lt_succ_iff]

/-- R51: the power at the index of the highest set bit is not above the operand. -/
theorem two_pow_log2_le {a : Word} (ha : 1 ≤ a.toNat) : 2 ^ (log2 a).toNat ≤ a.toNat := by
  rw [log2_toNat]
  exact Nat.pow_log_le_self 2 (Nat.ne_of_gt ha)

/-- R51: the next power is above the operand, 0 included. -/
theorem lt_two_pow_log2_add_one (a : Word) : a.toNat < 2 ^ ((log2 a).toNat + 1) := by
  rw [log2_toNat]
  exact Nat.lt_pow_succ_log_self Nat.one_lt_two _

/-- R78: up to `2^31` the result is a power of two, and above it is 0. -/
theorem nextpow2_eq_zero_iff (a : Word) : nextpow2 a = 0 ↔ 2 ^ 31 < a.toNat := by
  refine ⟨fun h => ?_, nextpow2_of_gt⟩
  by_contra hle
  have hy := nextpow2_toNat_of_le (not_lt.mp hle)
  rw [h] at hy
  exact (Nat.two_pow_pos _).ne hy

/-- R76: LOG2 reads the exponent off the power that NEXTPOW2 gives. -/
theorem log2_nextpow2_toNat {a : Word} (ha : a.toNat ≤ 2 ^ 31) :
    (log2 (nextpow2 a)).toNat = Nat.clog 2 a.toNat := by
  rw [log2_toNat, nextpow2_toNat_of_le ha, Nat.log_pow Nat.one_lt_two]

/-- At a power of two the ceiling of the logarithm is its floor. -/
theorem clog_eq_log2_of_pow {a : Word} (h : ∃ j, a.toNat = 2 ^ j) : Nat.clog 2 a.toNat = (log2 a).toNat := by
  obtain ⟨j, hj⟩ := h
  rw [log2_toNat, hj, Nat.clog_pow 2 j Nat.one_lt_two, Nat.log_pow Nat.one_lt_two]

/-- Elsewhere the operand lies strictly between two consecutive powers, so the ceiling is one above the floor. -/
theorem clog_eq_log2_add_one {a : Word} (ha : 1 ≤ a.toNat) (h : ¬ ∃ j, a.toNat = 2 ^ j) :
    Nat.clog 2 a.toNat = (log2 a).toNat + 1 := by
  have hne : 2 ^ (log2 a).toNat ≠ a.toNat := fun he => h ⟨_, he.symm⟩
  apply Nat.le_antisymm
  · exact Nat.clog_le_of_le_pow (lt_two_pow_log2_add_one a).le
  · exact (Nat.lt_clog_iff_pow_lt Nat.one_lt_two).mpr ((two_pow_log2_le ha).lt_of_ne hne)

/-- Settles O30: the logarithm is monotone, and its two ends are those of the word. -/
theorem log2IsMonotone : Obligations.Log2IsMonotone := by
  refine ⟨fun a b hab => ?_, log2_toNat_eq_31_iff, log2_toNat_eq_zero_iff⟩
  rw [log2_toNat, log2_toNat]
  exact Nat.log_mono_right hab

/-- Settles O31: up to `2^31` the exponent of the result is monotone; one above, the result wraps to 0. -/
theorem nextpow2IsMonotoneBelowTheWrap : Obligations.Nextpow2IsMonotoneBelowTheWrap := by
  refine ⟨fun a b hab hb => ?_, nextpow2_of_toNat_eq_two_pow (k := 31) rfl, nextpow2_of_gt (by decide)⟩
  rw [nextpow2_toNat_of_le (hab.trans hb), nextpow2_toNat_of_le hb]
  exact Nat.pow_le_pow_right Nat.two_pos (Nat.clog_mono_right 2 hab)

/-- Settles O32: a result that equals its operand is no wrap, since a wrap gives 0 and the operand is above 2^31; so the
operand is the power that the result is. -/
theorem powerOfTwoTest : Obligations.PowerOfTwoTest := by
  refine fun a => ⟨fun ⟨_, hk⟩ => nextpow2_of_toNat_eq_two_pow hk, fun h => ?_⟩
  rcases Nat.lt_or_ge (2 ^ 31) a.toNat with hgt | hle
  · have h0 : a = 0 := h.symm.trans (nextpow2_of_gt hgt)
    rw [h0] at hgt
    exact absurd hgt (by decide)
  · exact ⟨Nat.clog 2 a.toNat, (congrArg BitVec.toNat h).symm.trans (nextpow2_toNat_of_le hle)⟩

/-- Settles O33: up to `2^31` the chain gives the ceiling of the logarithm, which is its floor or one more; at 0 the
first result is 1 and above `2^31` it is 0, and LOG2 is 0 at both. -/
theorem log2OfNextpow2 : Obligations.Log2OfNextpow2 := by
  intro a s
  refine ⟨nextpow2 a, log2 (nextpow2 a), _, _, exec_nextpow2 a s, rfl, exec_log2 _ _, rfl,
    fun h1 hle => ?_, fun h0 => ?_, fun hgt => ?_⟩
  · have hk := log2_nextpow2_toNat hle
    refine ⟨fun hp => BitVec.eq_of_toNat_eq (hk.trans (clog_eq_log2_of_pow hp)),
      fun hp => hk.trans (clog_eq_log2_add_one h1 hp), ?_⟩
    rw [hk]
    exact ⟨⟨Nat.le_pow_clog Nat.one_lt_two _, fun _ => Nat.clog_le_of_le_pow⟩, nextpow2_toNat_of_le hle⟩
  · obtain rfl : a = 0 := BitVec.eq_of_toNat_eq h0
    rw [nextpow2_zero]
    rfl
  · rw [nextpow2_of_gt hgt, log2_zero]

/-- Settles O34: the powers are those at the floor and at the ceiling of the logarithm, and the operand is the power
itself or lies strictly between two consecutive ones. -/
theorem bracketingByPowers : Obligations.BracketingByPowers := by
  intro a h1 hle
  have hlow := two_pow_log2_le h1
  have hy := nextpow2_toNat_of_le hle
  have hup : a.toNat ≤ (nextpow2 a).toNat := hy ▸ Nat.le_pow_clog Nat.one_lt_two _
  have hpow (hp : ∃ j, a.toNat = 2 ^ j) : (nextpow2 a).toNat = 2 ^ (log2 a).toNat := by
    rw [hy, clog_eq_log2_of_pow hp]
  have hnot (hp : ¬ ∃ j, a.toNat = 2 ^ j) : (nextpow2 a).toNat = 2 * 2 ^ (log2 a).toNat := by
    rw [hy, clog_eq_log2_add_one h1 hp, Nat.pow_succ']
  refine ⟨hlow, hup, ?_, hpow, hnot⟩
  by_cases hp : ∃ j, a.toNat = 2 ^ j
  · rw [hpow hp]
    omega
  · have hne : a.toNat ≠ 2 ^ (log2 a).toNat := fun he => hp ⟨_, he⟩
    rw [hnot hp]
    omega

/-- Settles O35: the values at 0, and what a result 0 of each operation says of the operand. -/
theorem degenerateResults : Obligations.DegenerateResults := by
  refine ⟨nextpow2_zero, log2_zero, fun a => ⟨nextpow2_eq_zero_iff a, ?_⟩⟩
  have h : log2 a = 0 ↔ (log2 a).toNat = 0 := BitVec.toNat_eq (y := 0)
  rw [h, log2_toNat_eq_zero_iff, Nat.le_one_iff_eq_zero_or_eq_one]

end Sys2Proof.Machine

namespace Sys2Proof.Machine

/-! PROOFS. The derived views: LZC counts down to the highest set bit and BITLEN counts up to it
(spec/43_laws_and_derived_views.md R79 to R81). -/

theorem ne_zero_of_one_le_toNat {a : Word} (ha : 1 ≤ a.toNat) : a ≠ 0 := by
  rintro rfl
  exact absurd ha (by decide)

theorem lzc_of_pos {a : Word} (ha : 1 ≤ a.toNat) : lzc a = some (31 - (log2 a).toNat) :=
  if_neg (ne_zero_of_one_le_toNat ha)

theorem bitlen_of_pos {a : Word} (ha : 1 ≤ a.toNat) : bitlen a = some ((log2 a).toNat + 1) :=
  if_neg (ne_zero_of_one_le_toNat ha)

/-- R51: the bit at the index that LOG2 gives is set. -/
theorem getLsbD_log2_index {a : Word} (ha : 1 ≤ a.toNat) : a.getLsbD (log2 a).toNat = true :=
  Nat.testBit_of_two_pow_le_and_two_pow_add_one_gt (two_pow_log2_le ha) (lt_two_pow_log2_add_one a)

/-- R51: every bit above that index is clear. -/
theorem getLsbD_of_log2_lt {a : Word} {i : Nat} (hi : (log2 a).toNat < i) : a.getLsbD i = false :=
  Nat.testBit_lt_two_pow ((lt_two_pow_log2_add_one a).trans_le (Nat.pow_le_pow_right Nat.two_pos hi))

/-- R81: the exponent of NEXTPOW2's result is the bit length of the operand less one. -/
theorem bitlen_sub_one {a : Word} (ha : 2 ≤ a.toNat) : bitlen (a - 1) = some (Nat.clog 2 a.toNat) := by
  have hpred : (a - 1).toNat = a.toNat - 1 :=
    BitVec.toNat_sub_of_le (BitVec.le_def.mpr (Nat.le_of_succ_le ha))
  rw [bitlen_of_pos (by omega), log2_toNat, hpred, clog_two_eq_log_pred ha]

/-- Settles O36: 31 less the count is the index of the highest set bit. -/
theorem leadingZeroCountView : Obligations.LeadingZeroCountView := by
  refine ⟨fun a ha => ⟨_, lzc_of_pos ha, rfl, Nat.sub_le 31 _, ?_⟩, rfl⟩
  have hle := log2_toNat_le a
  rw [Nat.sub_sub_self hle, ← log2_toNat_eq_31_iff]
  exact ⟨getLsbD_log2_index ha, fun i hi _ => getLsbD_of_log2_lt hi, by omega⟩

/-- Settles O37: one above the index of the highest set bit is the least exponent whose power exceeds the operand. -/
theorem bitLengthView : Obligations.BitLengthView := by
  refine ⟨fun a ha => ?_, fun a h2 hle => ⟨_, bitlen_sub_one h2, nextpow2_toNat_of_le hle⟩⟩
  have h31 := log2_toNat_le a
  refine ⟨_, _, bitlen_of_pos ha, lzc_of_pos ha, rfl, Nat.le_add_left _ _, by omega,
    lt_two_pow_log2_add_one a, fun j hj => ?_, by omega⟩
  rw [log2_toNat]
  exact Nat.log_lt_of_lt_pow (Nat.ne_of_gt ha) hj

end Sys2Proof.Machine

namespace Sys2Proof.Machine

/-! PROOFS. A run presents its words in order, and each step is one of the run (spec/70_reset_and_hazards.md R106). -/

theorem run_succ_of_next {s t : State} (h : step s = .next t) (n : Nat) :
    Host.Core.run Sys2Proof.core (n + 1) s = Host.Core.run Sys2Proof.core n t := by
  simp only [Host.Core.run, Sys2Proof.core, h]

theorem run_succ_of_refused {s : State} {r : Refusal} (h : step s = .refused r) (n : Nat) :
    Host.Core.run Sys2Proof.core (n + 1) s = .refused r := by
  simp only [Host.Core.run, Sys2Proof.core, h]

/-- R106: words without a reserved one are all evaluated and observed in order, and a run of that many steps or more goes
on from the state they lead to. -/
theorem run_evaluates {ws rest : List CommandWord} (hws : ∀ w ∈ ws, opField w ≠ 3) {s : State}
    (hp : s.pending = ws ++ rest) :
    ∃ (t : State) (ys : List Word),
      (∀ k, Host.Core.run Sys2Proof.core (k + ws.length) s = Host.Core.run Sys2Proof.core k t) ∧
      t.pending = rest ∧ t.observed = s.observed ++ ys ∧ ys.map some = ws.map commandResult := by
  induction ws generalizing s with
  | nil => exact ⟨s, [], fun _ => rfl, hp, (List.append_nil _).symm, rfl⟩
  | cons w ws ih =>
    obtain ⟨hw, hws⟩ := List.forall_mem_cons.mp hws
    obtain ⟨y, hy, hstep⟩ := step_evaluates hp hw
    obtain ⟨t, ys, hrun, hrest, hobs, hys⟩ :=
      ih hws (evaluate_pending { s with pending := ws ++ rest } (opField w) (aField w) y)
    refine ⟨t, y :: ys, fun k => (run_succ_of_next hstep _).trans (hrun k), hrest, ?_, ?_⟩
    · rw [hobs, evaluate_observed, List.append_assoc, List.singleton_append]
    · rw [List.map_cons, List.map_cons, hys, hy]

/-- Settles O47: a run of as many steps as words ends where they lead, and there the next step is refused when a reserved
word follows. -/
theorem runObservesOneResultForEachWord : Obligations.RunObservesOneResultForEachWord := by
  refine ⟨fun ws rest s hws hp => ?_, fun ws rest w s n hws hw hp hn => ?_⟩
  · obtain ⟨t, ys, hrun, h⟩ := run_evaluates hws hp
    exact ⟨t, ys, by simpa only [Nat.zero_add, Host.Core.run] using hrun 0, h⟩
  · obtain ⟨t, ys, hrun, hrest, -⟩ := run_evaluates hws hp
    obtain ⟨k, rfl⟩ : ∃ k, n = k + 1 + ws.length := ⟨n - ws.length - 1, by omega⟩
    exact (hrun (k + 1)).trans (run_succ_of_refused (step_reserved hrest hw) k)

end Sys2Proof.Machine

namespace Sys2Proof.Machine

/-! PROOFS. The encoder and the decoder are inverse to each other, and the word of an operation as a table word runs next
(spec/30_encoding.md sections 1 and 2). -/

/-- Settles O10: the decoder reads back the select and the operand that the encoder wrote. -/
theorem decodeOfEncodeIsIdentity : Obligations.DecodeOfEncodeIsIdentity :=
  fun i _ => decode_encode i

/-- Settles O11: the fields of the word are the operation's select and operand, and a word is the word of its fields. -/
theorem encodeOfDecodeIsIdentity : Obligations.EncodeOfDecodeIsIdentity := by
  intro w i h
  obtain ⟨hs, ho⟩ := (decode_eq_ok_iff w i).mp h
  rw [encode, ← hs, ← ho, commandWord_fields]

/-- Settles O13: three of the words are those of operations, and two hold the select 3. -/
theorem specWordsDecode : Obligations.SpecWordsDecode :=
  ⟨decode_encode (.nextpow2 0xFFFFFFFF), decode_encode (.log2 0), decode_encode (.log2approx 0xFFFFFFFF),
    decode_error 0x300000000 (by decide), decode_error 0x3FFFFFFFF (by decide)⟩

/-- A step runs the operation its word decodes to, the word being taken from those to be presented. -/
theorem step_of_decode {s : State} {w : CommandWord} {rest : List CommandWord} {i : Instr}
    (hp : s.pending = w :: rest) (hd : decode w = .ok i) : step s = exec i { s with pending := rest } := by
  rw [step_pending hp, hd]

/-- A word presented ahead of the others is run by the next step, on the state it was presented to. -/
theorem step_presentWord_of_decode {w : CommandWord} {i : Instr} (hd : decode w = .ok i) (s : State) :
    step (s.presentWord w) = exec i s :=
  step_of_decode (presentWord_pending s w) hd

/-- Bits of a table word above bit 33 that are 0 leave the command word's number as it is (log entry 8). -/
theorem tableNumber_commandWord {nbits : Nat} (hn : 34 ≤ nbits) (w : CommandWord) :
    tableNumber nbits w.toNat = w.toNat :=
  Nat.mod_eq_of_lt (w.isLt.trans_le (Nat.pow_le_pow_right Nat.two_pos hn))

/-- The decoder on the number of a command word is the decoder on that word. -/
@[simp] theorem decodeNat_toNat (w : CommandWord) : decodeNat w.toNat = decode w := by
  rw [decodeNat, if_pos w.isLt, BitVec.ofNat_toNat, BitVec.setWidth_eq]

/-- Loading a command word as a table word presents that word (log entry 7). -/
theorem withFetchWord_commandWord {nbits : Nat} (hn : 34 ≤ nbits) (s : State) (w : CommandWord) :
    s.withFetchWord nbits w.toNat = s.presentWord w := by
  rw [State.withFetchWord, tableNumber_commandWord hn, if_pos w.isLt, BitVec.ofNat_toNat, BitVec.setWidth_eq]

/-- Settles O12: the table word's number is the operation's word, which is decoded and presented as such. -/
theorem tableWordRunsNext : Obligations.TableWordRunsNext := by
  intro i s nbits hn
  constructor
  · rw [decodeTableWord, tableNumber_commandWord hn, decodeNat_toNat, decode_encode]
  · rw [withFetchWord_commandWord hn]
    exact step_presentWord_of_decode (decode_encode i) s

/-- Settles O39: it is what the model's step does with a word that decodes. -/
theorem stepRunsTheDecodedOperation : Obligations.StepRunsTheDecodedOperation :=
  fun _ _ _ _ => step_of_decode

end Sys2Proof.Machine

namespace Sys2Proof.Machine

/-! PROOFS. An evaluation reads the pair it is presented and nothing else, and every step either makes one or is refused
(spec/10_state.md R16, R17; 20_memory.md R23, R24; 60_exceptions.md R90). -/

/-- After an evaluation of `F` the ports agree, whatever the state before. -/
theorem portsAgree_evaluate {op : Select} {a y : Word} (h : portFunction op a = some y) (s : State) :
    PortsAgree (s.evaluate op a y) :=
  .inr ⟨op, a, y, evaluate_op .., evaluate_a .., evaluate_y .., h, List.getLast?_concat ..⟩

/-- Settles O44: a step that answers a next state evaluated `F` of the word presented. -/
theorem stepKeepsPortsInAgreement : Obligations.StepKeepsPortsInAgreement := by
  intro s t _ hstep
  obtain ⟨w, rest, y, -, -, hy, rfl⟩ := step_next_cases hstep
  exact portsAgree_evaluate hy _

/-- Settles O42: at reset no port is driven, which is the first case of the agreement, and no word is there to be
reserved. -/
theorem resetMeetsTheInvariants : Obligations.ResetMeetsTheInvariants :=
  ⟨reset_op, reset_a, reset_y, .inl ⟨reset_op, reset_a, reset_y, reset_observed⟩, List.forall_mem_nil _⟩

/-- Settles O40: from both states the operation evaluates one value, which is `F` of its select and operand. -/
theorem resultDependsOnThePairAlone : Obligations.ResultDependsOnThePairAlone := by
  intro i s s'
  obtain ⟨y, -, hexec⟩ := exec_evaluates i
  exact ⟨_, _, hexec s, hexec s', rfl, rfl, rfl, rfl, rfl, rfl, List.prefix_append .., List.prefix_append ..⟩

/-- Two evaluations of one pair differ from one in the observation only. -/
theorem evaluate_evaluate (s : State) (op : Select) (a y : Word) :
    (s.evaluate op a y).evaluate op a y = { s.evaluate op a y with observed := s.observed ++ [y, y] } := by
  rw [State.evaluate, evaluate_observed, List.append_assoc]
  rfl

/-- Settles O41: the second evaluation gives the value of the first. -/
theorem presentingAgainChangesNothing : Obligations.PresentingAgainChangesNothing := by
  intro i s
  obtain ⟨y, -, hexec⟩ := exec_evaluates i
  exact ⟨_, _, y, hexec s, rfl, hexec _, evaluate_evaluate ..⟩

/-- A word whose select is not 3 has one result, and presenting it evaluates that result in every state. -/
theorem step_presentWord {w : CommandWord} (hw : opField w ≠ 3) :
    ∃ y, commandResult w = some y ∧
      ∀ s : State, step (s.presentWord w) = .next (s.evaluate (opField w) (aField w) y) := by
  obtain ⟨i, hd, hs, ho⟩ := decode_ok w hw
  obtain ⟨y, hy, hexec⟩ := exec_evaluates i
  rw [commandResult, ← hs, ← ho]
  exact ⟨y, hy, fun s => (step_presentWord_of_decode hd s).trans (hexec s)⟩

/-- Settles O43: the value is the word's own result, from reset as from any state. -/
theorem firstEvaluationEqualsALaterOne : Obligations.FirstEvaluationEqualsALaterOne := by
  intro w s hw
  obtain ⟨y, hy, hstep⟩ := step_presentWord hw
  exact ⟨_, _, y, hstep _, hstep s, rfl, rfl, rfl, rfl, rfl, rfl, hy⟩

/-- With no word left, nothing is presented (log entry 3). -/
theorem step_nil {s : State} (h : s.pending = []) : step s = .refused .nothingPresented := by
  rw [step, h]

/-- Settles O45: the next word is not reserved, so the step evaluates it, and the words after it are not reserved. -/
theorem obeyingHostsRunToTheEnd : Obligations.ObeyingHostsRunToTheEnd := by
  intro s hobeys
  rw [HostObeys] at hobeys
  cases hp : s.pending with
  | nil => exact .inl ⟨rfl, step_nil hp⟩
  | cons w rest =>
    rw [hp] at hobeys
    obtain ⟨hw, hrest⟩ := List.forall_mem_cons.mp hobeys
    obtain ⟨y, hy, hstep⟩ := step_evaluates hp ((commandWellFormed_iff w).mp hw)
    exact .inr ⟨_, hstep, hrest, portsAgree_evaluate hy _, rfl⟩

/-- Settles O46: no word left, a reserved word, or an evaluation; and there is no fault a step could give. -/
theorem stepsNeverFault : Obligations.StepsNeverFault := by
  refine ⟨fun s => ?_, fun _ f => (nomatch f), fun i s => ?_⟩
  · cases hp : s.pending with
    | nil => exact .inr (.inl ⟨rfl, step_nil hp⟩)
    | cons w rest =>
      by_cases hw : opField w = 3
      · exact .inr (.inr ⟨w, rest, rfl, hw, step_reserved hp hw⟩)
      · obtain ⟨y, -, hstep⟩ := step_evaluates hp hw
        exact .inl ⟨_, hstep⟩
  · obtain ⟨y, -, hexec⟩ := exec_evaluates i
    exact ⟨_, hexec s⟩

end Sys2Proof.Machine

namespace Sys2Proof.Machine

/-! PROOFS. The shifts and the OR as operations on numbers and bits, and the fixed work of the two exact operations
(spec/00_scope.md R5, R6; 43_laws_and_derived_views.md R70, R72; 70_reset_and_hazards.md R104). -/

/-- R5: the right shift drops the low bits and brings in zeros. -/
theorem shr32_toNat (x : Word) (n : Nat) : (shr32 x n).toNat = x.toNat / 2 ^ n := by
  rw [shr32, BitVec.toNat_ushiftRight, Nat.shiftRight_eq_div_pow]

/-- R6: the left shift loses the bits that leave the word. -/
theorem shl32_toNat (x : Word) (n : Nat) : (shl32 x n).toNat = x.toNat * 2 ^ n % 2 ^ 32 := by
  rw [shl32, BitVec.toNat_shiftLeft, Nat.shiftLeft_eq]

/-- Settles O2: a bit moved by at most 4 places stays in the word. -/
theorem shiftsAreLogicalOrIsBitwise : Obligations.ShiftsAreLogicalOrIsBitwise := by
  refine ⟨fun x n _ => shr32_toNat x n, fun x => BitVec.ushiftRight_zero x, shl32_toNat, fun x n hx _ hn => ?_,
    fun x y i => BitVec.getLsbD_or⟩
  have hlt : x.toNat * 2 ^ n < 2 ^ 32 :=
    calc x.toNat * 2 ^ n ≤ 1 * 2 ^ 4 := Nat.mul_le_mul hx (Nat.pow_le_pow_right Nat.two_pos hn)
      _ < 2 ^ 32 := by decide
  rw [shl32_toNat, Nat.mod_eq_of_lt hlt]

/-- R42: the first add makes 1 of 0 and leaves every other operand as it is, so it does not wrap. -/
theorem toNat_add_eqz_lt (a : Word) : a.toNat + (eqz a).toNat < 2 ^ 32 := by
  by_cases h : a = 0
  · rw [h, eqz_zero]
    decide
  · rw [eqz_of_ne_zero h]
    exact a.isLt

/-- R43: `t6` is all ones exactly above `2^31`, where the least power not below the operand is `2^32`. -/
theorem two_pow_le_np2T6_add_one_iff (a : Word) : 2 ^ 32 ≤ (np2T6 a).toNat + 1 ↔ 2 ^ 31 < a.toNat := by
  rw [np2T6_toNat, Nat.sub_add_cancel Nat.one_le_two_pow, Nat.pow_le_pow_iff_right Nat.one_lt_two, Nat.succ_le_iff,
    Nat.lt_clog_iff_pow_lt Nat.one_lt_two]

/-- Settles O20: the first add makes 1 of 0, the subtraction starts from 1 or more, and `t6 + 1` is the power of two. -/
theorem nextpow2OnlyTheLastAddWraps : Obligations.Nextpow2OnlyTheLastAddWraps :=
  fun a => ⟨toNat_add_eqz_lt a, np2T0_toNat a ▸ le_max_right _ _, two_pow_le_np2T6_add_one_iff a⟩

/-- R7: a comparison is one bit. -/
theorem gtu_toNat_le_one (x y : Word) : (gtu x y).toNat ≤ 1 := by
  rcases Nat.lt_or_ge y.toNat x.toNat with h | h
  · rw [gtu_of_lt h]
    decide
  · rw [gtu_of_le h]
    decide

/-- R72: a stage shifts by its weight or not at all. -/
theorem stageShift_toNat_eq_or (v t : Word) {k : Nat} (hk : k ≤ 4) :
    (stageShift v t k).toNat = 0 ∨ (stageShift v t k).toNat = 2 ^ k := by
  rcases stage_cases v t k hk with ⟨-, hs, -⟩ | ⟨-, hs, -⟩
  · exact .inr hs
  · exact .inl hs

/-- Settles O25: the four shift amounts are those of stages of weight 2^4, 2^3, 2^2 and 2^1. -/
theorem log2ShiftAmounts : Obligations.Log2ShiftAmounts :=
  ⟨gtu_toNat_le_one, fun _ => ⟨stageShift_toNat_eq_or _ _ (k := 4) (by decide),
    stageShift_toNat_eq_or _ _ (k := 3) (by decide), stageShift_toNat_eq_or _ _ (k := 2) (by decide),
    stageShift_toNat_eq_or _ _ (k := 1) (by decide)⟩⟩

/-- R104: the code of NEXTPOW2 computes the pseudocode's values one by one. -/
theorem nodesResult_nextpow2Nodes (a : Word) : nodesResult nextpow2Nodes a = some (nextpow2 a) := rfl

/-- R104: the code of LOG2 computes the pseudocode's values one by one. -/
theorem nodesResult_log2Nodes (a : Word) : nodesResult log2Nodes a = some (log2 a) := by
  simp only [nodesResult, log2Nodes, runNodes, Arg.read, List.cons_append, List.nil_append, List.getElem?_cons_zero,
    List.getElem?_cons_succ, List.getLast?_cons_cons, List.getLast?_singleton]
  rfl

/-- Settles O50: each code computes its operation, and its operations are counted. -/
theorem workIsTheSameForEveryOperand : Obligations.WorkIsTheSameForEveryOperand :=
  ⟨nodesResult_nextpow2Nodes, by decide, nodesResult_log2Nodes, by decide⟩

end Sys2Proof.Machine

namespace Sys2Proof.Machine

/-! PROOFS. What the form of `APPROX` allows and what the named assumptions give (spec/42_log2approx.md R62 to R66), and
where the views stop (43_laws_and_derived_views.md R82). -/

theorem eq_zero_iff_toNat (a : Word) : a = 0 ↔ a.toNat = 0 := BitVec.toNat_eq (y := 0)

/-- Log entry 5: with the function itself in the place of the free one, the form gives the function back. -/
theorem approxOf_eq_of_offDiv {f : Word → Word} {div : Word → Bool} (h : HOffDiv f div) (a : Word) :
    approxOf f div a = f a := by
  rcases Nat.eq_zero_or_pos a.toNat with h0 | hpos
  · exact if_pos (.inl ((eq_zero_iff_toNat a).mpr h0))
  · cases hmem : approxDivMem div a with
    | true => exact if_pos (.inr (Bool.and_eq_true_iff.mp hmem).2)
    | false => exact (approxOf_offDiv f div a hpos hmem).trans (h a hpos hmem).symm

/-- LOG2 but for the value `v` at `a`. -/
def log2ExceptAt (a v : Word) : Word → Word := Function.update log2 a v

/-- R63, R65: at 0 and on the set any value may stand. -/
theorem log2ExceptAt_offDiv {div : Word → Bool} {a : Word} (v : Word) (ha : a.toNat = 0 ∨ approxDivMem div a = true) :
    HOffDiv (log2ExceptAt a v) div := by
  intro b hb hmem
  apply Function.update_of_ne
  rintro rfl
  rcases ha with h0 | hdiv
  · omega
  · exact Bool.false_ne_true (hmem.symm.trans hdiv)

/-- With the empty set and 0 at 0 every operand is fixed. -/
theorem offDiv_empty_and_zero_iff (f : Word → Word) :
    HOffDiv f (fun _ => false) ∧ HZero f ↔ ∀ a, f a = log2 a := by
  refine ⟨fun ⟨hoff, hzero⟩ a => ?_, fun h => ⟨fun a _ _ => h a, (h 0).trans log2_zero⟩⟩
  rcases Nat.eq_zero_or_pos a.toNat with h0 | hpos
  · rw [(eq_zero_iff_toNat a).mpr h0, log2_zero]
    exact hzero
  · exact hoff a hpos (Bool.and_false _)

/-- Settles O28: the form takes the function for its free part; LOG2 changed at one operand has any value there. -/
theorem approxFormIsComplete : Obligations.ApproxFormIsComplete :=
  ⟨fun _ _ => approxOf_eq_of_offDiv,
    fun _ a v ha => ⟨log2ExceptAt a v, log2ExceptAt_offDiv v ha, Function.update_self ..⟩, offDiv_empty_and_zero_iff⟩

/-- R66: one too low on the set, so LOG2 is at least 1 there. -/
theorem HLowByOne.log2_toNat_eq {f : Word → Word} {div : Word → Bool} (h : HLowByOne f div) {a : Word}
    (ha : approxDivMem div a = true) : (log2 a).toNat = (f a).toNat + 1 := by
  have hlow := h a ha
  omega

/-- Settles O29: off the set the value is LOG2 and on it one less, so LOG2's range bounds it; a power of two has LOG2 for
its exponent. -/
theorem lowByOneGivesRange : Obligations.LowByOneGivesRange := by
  intro f div hoff hlow
  refine ⟨fun a ha => ?_, fun hpow a hmem => ?_⟩
  · have hle := log2_toNat_le a
    cases hmem : approxDivMem div a with
    | true =>
      have hlog := hlow.log2_toNat_eq hmem
      omega
    | false => rwa [hoff a ha hmem]
  · obtain ⟨k, -, -, hk⟩ := hpow a hmem
    rw [← hlow.log2_toNat_eq hmem, log2_toNat, hk, Nat.log_pow Nat.one_lt_two]

/-- Settles O38: at 0 the test of each view holds, and elsewhere the view counts from the result of LOG2. -/
theorem viewsStopAtZeroOnly : Obligations.ViewsStopAtZeroOnly := by
  intro a
  rcases Nat.eq_zero_or_pos a.toNat with h0 | hpos
  · obtain rfl := (eq_zero_iff_toNat a).mpr h0
    exact ⟨iff_of_true rfl rfl, iff_of_true rfl rfl⟩
  · rw [lzc_of_pos hpos, bitlen_of_pos hpos]
    exact ⟨iff_of_false nofun hpos.ne', iff_of_false nofun hpos.ne'⟩

end Sys2Proof.Machine

namespace Sys2Proof.Machine

/-! PROOFS. Several blocks: a request is an evaluation of the block it names and leaves the others alone
(spec/20_memory.md R24, R27; log entry 14). -/

/-- What a block in the state `s` shows after the words `ws` were presented to it: its run goes on, it observed their
results in order, and its ports hold the last pair and result. -/
structure Served (s : State) (ws : List CommandWord) (t : State) : Prop where
  pending : t.pending = s.pending
  observed : ∃ ys, t.observed = s.observed ++ ys ∧ ys.map some = ws.map commandResult
  idle : ws = [] → t = s
  ports : ∀ w, ws.getLast? = some w →
    t.op = some (opField w) ∧ t.a = some (aField w) ∧ t.y.isSome = true ∧ t.y = commandResult w

theorem Served.nil (s : State) : Served s [] s where
  pending := rfl
  observed := ⟨[], (List.append_nil _).symm, rfl⟩
  idle _ := rfl
  ports _ h := nomatch h

/-- One word more at the front: the block evaluates it and serves the others from there. -/
theorem Served.cons {s t : State} {w : CommandWord} {ws : List CommandWord} {y : Word}
    (hy : commandResult w = some y) (h : Served (s.evaluate (opField w) (aField w) y) ws t) :
    Served s (w :: ws) t where
  pending := h.pending
  observed := by
    obtain ⟨ys, hobs, hys⟩ := h.observed
    exact ⟨y :: ys, by rw [hobs, evaluate_observed, List.append_assoc, List.singleton_append],
      by rw [List.map_cons, List.map_cons, hys, hy]⟩
  idle h := nomatch h
  ports v hv := by
    cases ws with
    | nil =>
      obtain rfl : w = v := Option.some.inj hv
      rw [h.idle rfl, hy]
      exact ⟨rfl, rfl, rfl, rfl⟩
    | cons v' ws => exact h.ports v hv

/-- The words of the requests that go to block number `k`, in order. -/
def wordsFor (k : Nat) (qs : List (Nat × CommandWord)) : List CommandWord :=
  (qs.filter fun q => q.1 = k).map Prod.snd

theorem wordsFor_cons_self (k : Nat) (w : CommandWord) (qs : List (Nat × CommandWord)) :
    wordsFor k ((k, w) :: qs) = w :: wordsFor k qs := by
  simp [wordsFor]

theorem wordsFor_cons_of_ne {j k : Nat} (h : j ≠ k) (w : CommandWord) (qs : List (Nat × CommandWord)) :
    wordsFor k ((j, w) :: qs) = wordsFor k qs := by
  simp [wordsFor, h]

/-- A request to a block that there is, with a word that is not reserved, evaluates the word there. -/
theorem serveOne_evaluates {bank : List State} {k : Nat} {s : State} {w : CommandWord} (hs : bank[k]? = some s)
    (hw : opField w ≠ 3) :
    ∃ y, commandResult w = some y ∧
      serveOne bank k w = some (bank.set k (s.evaluate (opField w) (aField w) y)) := by
  obtain ⟨y, hy, hstep⟩ := step_presentWord hw
  refine ⟨y, hy, ?_⟩
  simp only [serveOne, hs, hstep]

/-- All requests are served, and each block serves the words of its own. -/
theorem serveAll_served (bank : List State) (qs : List (Nat × CommandWord))
    (hqs : ∀ q ∈ qs, q.1 < bank.length ∧ opField q.2 ≠ 3) :
    ∃ bank', serveAll bank qs = some bank' ∧ bank'.length = bank.length ∧
      ∀ (k : Nat) (s : State), bank[k]? = some s → ∃ t, bank'[k]? = some t ∧ Served s (wordsFor k qs) t := by
  induction qs generalizing bank with
  | nil => exact ⟨bank, rfl, rfl, fun k s hs => ⟨s, hs, Served.nil s⟩⟩
  | cons q qs ih =>
    obtain ⟨j, w⟩ := q
    obtain ⟨⟨hj, hw⟩, hqs⟩ := List.forall_mem_cons.mp hqs
    obtain ⟨y, hy, hone⟩ := serveOne_evaluates (List.getElem?_eq_getElem hj) hw
    obtain ⟨bank', hall, hlen, hserved⟩ :=
      ih (bank.set j (bank[j].evaluate (opField w) (aField w) y)) (by rwa [List.length_set])
    refine ⟨bank', by rw [serveAll, hone]; exact hall, hlen.trans List.length_set, fun k s hs => ?_⟩
    by_cases hjk : j = k
    · subst hjk
      obtain rfl : bank[j] = s := Option.some.inj ((List.getElem?_eq_getElem hj).symm.trans hs)
      obtain ⟨t, ht, hst⟩ := hserved j _ (List.getElem?_set_self hj)
      exact ⟨t, ht, wordsFor_cons_self j w qs ▸ hst.cons hy⟩
    · rw [wordsFor_cons_of_ne hjk]
      exact hserved k s ((List.getElem?_set_ne hjk).trans hs)

/-- Settles O48: each block serves the words of its own requests, and with no request it serves none. -/
theorem instancesShareNothing : Obligations.InstancesShareNothing := by
  intro bank qs hqs
  obtain ⟨bank', hall, hlen, hserved⟩ := serveAll_served bank qs hqs
  refine ⟨bank', hall, hlen, fun k s hs => ?_⟩
  obtain ⟨t, ht, hst⟩ := hserved k s hs
  obtain ⟨ys, hobs, hys⟩ := hst.observed
  refine ⟨t, ys, ht, hst.pending, hobs, by rw [hys, wordsFor, List.map_map]; rfl, fun hnone => hst.idle ?_,
    fun q hq => hst.ports q.2 ?_⟩
  · rw [wordsFor, List.filter_eq_nil_iff.mpr fun q hq => by simp [hnone q hq], List.map_nil]
  · rw [wordsFor, List.getLast?_map, hq, Option.map_some]

end Sys2Proof.Machine

namespace Sys2Proof.Machine

/-! PROOFS. The pipeline registers are a queue of results (spec/70_reset_and_hazards.md R105). -/

/-- An edge puts the new result in front and takes the last one off, the registers' number staying the same. -/
theorem pipeEdge_append (p : Option Word) (regs : List (Option Word)) :
    (pipeEdge p regs).1 ++ [(pipeEdge p regs).2] = p :: regs := by
  induction regs generalizing p with
  | nil => rfl
  | cons r rs ih => exact congrArg (p :: ·) (ih r)

/-- The values on `y`: first what the registers held, the oldest first, and then the results in order. -/
theorem pipeRun_eq_take (regs : List (Option Word)) (ws : List CommandWord) :
    pipeRun regs ws = (regs.reverse ++ ws.map commandResult).take ws.length := by
  induction ws generalizing regs with
  | nil => rfl
  | cons w ws ih =>
    have hedge := congrArg List.reverse (pipeEdge_append (commandResult w) regs)
    rw [List.reverse_append, List.reverse_singleton, List.singleton_append, List.reverse_cons] at hedge
    rw [pipeRun, ih, List.map_cons, List.append_cons, ← hedge, List.cons_append, List.length_cons, List.take_succ_cons]

/-- Settles O49: the result of word `n` stands behind the values of the registers, and behind none when there is none. -/
theorem pipelineDelaysEveryResultAlike : Obligations.PipelineDelaysEveryResultAlike := by
  refine ⟨fun regs ws => ⟨?_, fun n hn => ?_⟩, fun regs ws hregs => ?_⟩
  · rw [pipeRun_eq_take, List.length_take, List.length_append, List.length_map]
    exact Nat.min_eq_left (Nat.le_add_left _ _)
  · rw [pipeRun_eq_take, List.getElem?_take_of_lt hn, List.getElem?_append_right (by simp), List.length_reverse,
      Nat.add_sub_cancel, List.getElem?_map]
  · obtain rfl : regs = [] := List.length_eq_zero_iff.mp hregs
    rw [pipeRun_eq_take, List.reverse_nil, List.nil_append, ← List.length_map commandResult, List.take_length]

end Sys2Proof.Machine

namespace Sys2Proof.Machine

/-! PROOFS. Written lines and the mnemonics (spec/30_encoding.md R36; log entries 15 to 18). -/

/-- No mnemonic stands for the reserved select. -/
theorem mnemonicSelect_ne_three (m : Mnemonic) : mnemonicSelect m ≠ 3 := by
  cases m <;> decide

/-- R33, R36: a line whose operand has a value evaluates its operation on the reduced operand and names the result. -/
theorem runLine_evaluates {names : List (Name × Word)} {l : Line} {x : Int}
    (hx : sourceValue names l.operand = some x) (s : State) :
    ∃ y, portFunction (mnemonicSelect l.mnemonic) (trunc32 x) = some y ∧
      runLine names s l =
        .ok ((l.dest, y) :: names, s.evaluate (mnemonicSelect l.mnemonic) (trunc32 x) y) := by
  have hop : opField (reducedCommand (mnemonicSelect l.mnemonic) x) = mnemonicSelect l.mnemonic :=
    opField_commandWord ..
  have ha : aField (reducedCommand (mnemonicSelect l.mnemonic) x) = trunc32 x := aField_commandWord ..
  obtain ⟨y, hy, hstep⟩ := step_presentWord (hop ▸ mnemonicSelect_ne_three l.mnemonic)
  rw [commandResult, hop, ha] at hy
  refine ⟨y, hy, ?_⟩
  simp only [runLine, hx, hstep, evaluate_y, hop, ha]

/-- Settles O51: the reduced operand is the low 32 bits of the integer. -/
theorem lineNamesItsResult : Obligations.LineNamesItsResult := by
  intro names s l x hx
  obtain ⟨y, hy, hrun⟩ := runLine_evaluates hx s
  exact ⟨y, _, hrun, trunc32_eq_ofInt x ▸ hy, rfl, rfl, rfl⟩

/-- A name that was given has a value. -/
theorem lookupName_of_mem {names : List (Name × Word)} {n : Name} (h : n ∈ names.map Prod.fst) :
    ∃ v, lookupName names n = some v := by
  induction names with
  | nil => nomatch h
  | cons p rest ih =>
    obtain ⟨m, v⟩ := p
    rw [lookupName]
    by_cases hm : m = n
    · exact ⟨v, if_pos hm⟩
    · rw [if_neg hm]
      exact ih ((List.mem_cons.mp h).resolve_left (Ne.symm hm))

/-- The operand of the first of well-formed lines has a value, and the others are well formed once the line is named. -/
theorem linesWellFormed_cons {names : List (Name × Word)} {l : Line} {ls : List Line}
    (h : linesWellFormed (names.map Prod.fst) (l :: ls) = true) :
    (∃ x, sourceValue names l.operand = some x) ∧
      linesWellFormed (l.dest :: names.map Prod.fst) ls = true := by
  rw [linesWellFormed, Bool.and_eq_true] at h
  obtain ⟨hfirst, hrest⟩ := h
  refine ⟨?_, hrest⟩
  cases hop : l.operand with
  | literal x => exact ⟨x, rfl⟩
  | name n =>
    rw [hop] at hfirst
    obtain ⟨v, hv⟩ := lookupName_of_mem (List.contains_iff_mem.mp hfirst)
    exact ⟨v.toNat, by rw [sourceValue, hv, Option.map_some]⟩

theorem runLines_cons {names names' : List (Name × Word)} {s t : State} {l : Line}
    (h : runLine names s l = .ok (names', t)) (ls : List Line) :
    runLines names s (l :: ls) = runLines names' t ls := by
  rw [runLines, h]

/-- Settles O52: the first line runs and gives its name, and the others run with that name among the earlier ones. -/
theorem wellFormedLinesRunToTheEnd : Obligations.WellFormedLinesRunToTheEnd := by
  intro ls
  induction ls with
  | nil => exact fun names s _ => ⟨[], s, rfl, rfl, rfl, (List.append_nil _).symm⟩
  | cons l ls ih =>
    intro names s hwf
    obtain ⟨⟨x, hx⟩, hrest⟩ := linesWellFormed_cons hwf
    obtain ⟨y, -, hrun⟩ := runLine_evaluates hx s
    obtain ⟨new, t, hruns, hnames, hpending, hobserved⟩ := 
      ih ((l.dest, y) :: names) (s.evaluate (mnemonicSelect l.mnemonic) (trunc32 x) y) hrest
    refine ⟨new ++ [(l.dest, y)], t, ?_, ?_, hpending, ?_⟩
    · rw [runLines_cons hrun, hruns, List.append_assoc, List.singleton_append]
    · simp [hnames]
    · simp [hobserved]

/-- The spelling of a mnemonic in capitals (30_encoding.md R36). -/
def mnemonicSpelling : Mnemonic → List Char
  | .nextpow2 => ['N', 'E', 'X', 'T', 'P', 'O', 'W', '2']
  | .log2 => ['L', 'O', 'G', '2']
  | .log2approx => ['L', 'O', 'G', '2', 'A', 'P', 'P', 'R', 'O', 'X']

/-- R36: a text is read as the mnemonic whose spelling its capitals are, and the three spellings differ. -/
theorem mnemonicOf_eq_some_iff (text : List Char) (m : Mnemonic) :
    mnemonicOf text = some m ↔ text.map Char.toUpper = mnemonicSpelling m := by
  rw [mnemonicOf]
  generalize text.map Char.toUpper = up
  constructor
  · intro h
    split_ifs at h with h1 h2 h3
    · cases h; exact h1
    · cases h; exact h2
    · cases h; exact h3
  · rintro rfl
    cases m with
    | nextpow2 => rfl
    | log2 => rfl
    | log2approx => rfl

/-- What a text is read as depends on its capitals alone. -/
theorem mnemonicOf_congr {text text' : List Char} (h : text.map Char.toUpper = text'.map Char.toUpper) :
    mnemonicOf text = mnemonicOf text' := by
  rw [mnemonicOf, mnemonicOf, h]

theorem map_toUpper_map_toUpper (text : List Char) :
    (text.map Char.toUpper).map Char.toUpper = text.map Char.toUpper := by
  rw [List.map_map]
  exact List.map_congr_left fun c _ => Char.toUpper_toUpper_eq_toUpper c

theorem map_toUpper_map_toLower (text : List Char) :
    (text.map Char.toLower).map Char.toUpper = text.map Char.toUpper := by
  rw [List.map_map]
  exact List.map_congr_left fun c _ => Char.toUpper_toLower_eq_toUpper c

/-- Settles O53: the capitals of a text are also those of its capitals and of its small letters. -/
theorem mnemonicsAreReadInAnyCase : Obligations.MnemonicsAreReadInAnyCase :=
  fun text => ⟨mnemonicOf_eq_some_iff text .nextpow2, mnemonicOf_eq_some_iff text .log2,
    mnemonicOf_eq_some_iff text .log2approx, mnemonicOf_congr (map_toUpper_map_toUpper text),
    mnemonicOf_congr (map_toUpper_map_toLower text)⟩

end Sys2Proof.Machine
